-- ==== Sys2Proof/Word.lean ====
section
/-! DEFINITION. The word types of RSENC. Widths: 00_scope.md rule R7, 30_encoding.md rule R37. -/

namespace Sys2Proof

/-- One symbol, table entry or buffer entry (SYM_BITS = 8, rule R7). -/
abbrev Byte := BitVec 8

/-- The value field of a parameter register (PARAM_BITS = 16, rule R7). -/
abbrev Half := BitVec 16

/-- One bus word (BUS_BITS = 32, rule R7). -/
abbrev Word := BitVec 32

/-- A word address of the host bus (WADDR_BITS = 11, rules R7 and R30). -/
abbrev WAddr := BitVec 11

/-- A bus transaction word T (rule R37). -/
abbrev TWord := BitVec 44

/-- A byte address of the bridge of rule R32: 4 bytes for each of the 2^11 words. -/
abbrev ByteAddr := BitVec 13

end Sys2Proof
end

