-- ==== Sys2Proof/Syntax.lean ====
section
/-! DEFINITION. The instructions of RSENC: one constructor for each row of spec/opcode_table.json.
An instruction is one bus transaction (30_encoding.md rules R36 and R37). Ignored bits are no operand. -/

namespace Sys2Proof

/-- One bus transaction. `op` is the OP field T[3:0] of a command row, `waddr` and `wdata` are the
WADDR and WDATA fields (rule R37). -/
inductive Instr where
  | nop                                     -- NOP, rule R83
  | init                                    -- INIT, rule R73
  | encode                                  -- ENCODE, rule R62
  | rsvdCmd3                                -- RSVD_CMD_3, rule R84
  | rsvdCmd4to7 (op : BitVec 4)             -- RSVD_CMD_4_7, rule R84
  | rsvdCmd8to15 (op : BitVec 4)            -- RSVD_CMD_8_15, rule R84
  | wr (waddr : WAddr) (wdata : Word)       -- WR, rule R86
  | rd (waddr : WAddr)                      -- RD, rule R85
  deriving DecidableEq, Repr

/-- The mnemonic of the instruction's row in spec/opcode_table.json. -/
def Instr.mnemonic : Instr → String
  | .nop => "NOP"
  | .init => "INIT"
  | .encode => "ENCODE"
  | .rsvdCmd3 => "RSVD_CMD_3"
  | .rsvdCmd4to7 _ => "RSVD_CMD_4_7"
  | .rsvdCmd8to15 _ => "RSVD_CMD_8_15"
  | .wr _ _ => "WR"
  | .rd _ => "RD"

end Sys2Proof
end

