-- ==== Sys2Proof/WellFormed.lean ====
section
/-! DEFINITION. Which instruction terms stand for a transaction word: the field ranges of
spec/opcode_table.json. -/

namespace Sys2Proof

/-- The ranges the opcode table gives the operand fields: OP 4 .. 7 and 8 .. 15 for the two reserved
rows, and for WR any WADDR except 0x000, which is CMD (rules R36 and R37). -/
def Instr.wf : Instr → Bool
  | .nop => true
  | .init => true
  | .encode => true
  | .rsvdCmd3 => true
  | .rsvdCmd4to7 op => decide (4 ≤ op.toNat ∧ op.toNat ≤ 7)
  | .rsvdCmd8to15 op => decide (8 ≤ op.toNat)
  | .wr waddr _ => decide (waddr ≠ 0)
  | .rd _ => true

end Sys2Proof
end

