-- ==== Sys2Proof/Decode.lean ====
section
/-! DEFINITION. The decoder and the encoder of bus transaction words (30_encoding.md rules R36 and R37,
spec/opcode_table.json). -/

namespace Sys2Proof

/-- Why a number is refused by the decoder. -/
inductive DecodeError where
  /-- The number has a bit above bit 43, so it is no transaction word of rule R37. -/
  | notATransactionWord
  deriving DecidableEq, Repr

/-- T[43] of rule R37: 1 = write. -/
def TWord.we (t : TWord) : Bool := t.getLsbD 43

/-- T[42:32] of rule R37. -/
def TWord.waddr (t : TWord) : WAddr := t.extractLsb' 32 11

/-- T[31:0] of rule R37. -/
def TWord.wdata (t : TWord) : Word := t.extractLsb' 0 32

/-- OP of a CMD write: v[3:0] of the written word (rule R36). -/
def commandOp (v : Word) : BitVec 4 := v.extractLsb' 0 4

/-- The opcode map of rule R36; the reserved codes are split as the opcode table's rows split them. -/
def decodeCommand (op : BitVec 4) : Instr :=
  if op.toNat = 0 then .nop
  else if op.toNat = 1 then .init
  else if op.toNat = 2 then .encode
  else if op.toNat = 3 then .rsvdCmd3
  else if op.toNat ≤ 7 then .rsvdCmd4to7 op
  else .rsvdCmd8to15 op

/-- Decoding T in the priority order of rule R37. Every transaction word has a meaning. -/
def decodeWord (t : TWord) : Instr :=
  if TWord.we t = false then .rd (TWord.waddr t)
  else if TWord.waddr t = 0 then decodeCommand (commandOp (TWord.wdata t))
  else .wr (TWord.waddr t) (TWord.wdata t)

/-- The decoder on any number: the 44-bit ones are transaction words, every other is refused. -/
def decode (w : Nat) : Except DecodeError Instr :=
  if w < 2 ^ 44 then .ok (decodeWord (BitVec.ofNat 44 w)) else .error .notATransactionWord

/-- The instruction the decoder reads from a table row's bits, bit 0 the least significant bit of T.
A transaction word is 44 bits whatever `_nbits` says (rule R37: one length, one format). -/
def decodeTableWord (_nbits w : Nat) : Option Instr :=
  match decode w with
  | .ok i => some i
  | .error _ => none

/-! ## The encoder -/

/-- The transaction word with the three fields of rule R37. -/
def TWord.ofFields (we : Bool) (waddr : WAddr) (wdata : Word) : TWord :=
  BitVec.ofBool we ++ (waddr ++ wdata)

/-- The CMD write that issues a command; the ignored bits are 0, as the assembler writes them (rule R36). -/
def encodeCommand (op : BitVec 4) : TWord := TWord.ofFields true 0 (op.setWidth 32)

/-- The transaction word of an instruction (rules R36 and R37). -/
def encodeInstr : Instr → TWord
  | .nop => encodeCommand 0
  | .init => encodeCommand 1
  | .encode => encodeCommand 2
  | .rsvdCmd3 => encodeCommand 3
  | .rsvdCmd4to7 op => encodeCommand op
  | .rsvdCmd8to15 op => encodeCommand op
  | .wr waddr wdata => TWord.ofFields true waddr wdata
  | .rd waddr => TWord.ofFields false waddr 0

/-! ## The opcode table -/

/-- One row of spec/opcode_table.json: T belongs to it when T AND mask = match. -/
structure OpcodeRow where
  mnemonic : String
  pattern : TWord
  mask : TWord
  deriving DecidableEq, Repr

/-- Whether T matches the row. -/
def OpcodeRow.matches (r : OpcodeRow) (t : TWord) : Bool := t &&& r.mask == r.pattern

/-- spec/opcode_table.json in its own order; WR stands after the command rows, which is its priority 2. -/
def opcodeTable : List OpcodeRow :=
  [ ⟨"NOP", 0x80000000000#44, 0xFFF0000000F#44⟩,
    ⟨"INIT", 0x80000000001#44, 0xFFF0000000F#44⟩,
    ⟨"ENCODE", 0x80000000002#44, 0xFFF0000000F#44⟩,
    ⟨"RSVD_CMD_3", 0x80000000003#44, 0xFFF0000000F#44⟩,
    ⟨"RSVD_CMD_4_7", 0x80000000004#44, 0xFFF0000000C#44⟩,
    ⟨"RSVD_CMD_8_15", 0x80000000008#44, 0xFFF00000008#44⟩,
    ⟨"WR", 0x80000000000#44, 0x80000000000#44⟩,
    ⟨"RD", 0x00000000000#44, 0x80000000000#44⟩ ]

/-- The mnemonic of the first row that T matches. -/
def tableMnemonic (t : TWord) : Option String :=
  (opcodeTable.find? (fun r => r.matches t)).map OpcodeRow.mnemonic

end Sys2Proof
end

