-- ==== Sys2Proof/Config.lean ====
section
/-! DEFINITION. The implementation parameters of 00_scope.md rule R7, and the type of the active
configuration (10_state.md rule R18), which the open parameter CMD_STALL_CYCLES takes. -/

namespace Sys2Proof

/-- The active configuration `cfg` (rule R18): nine fields, written together by a successful INIT.
The register that shows a field is named beside it. -/
structure ActiveConfig where
  m : BitVec 4        -- C.SYMW
  poly : Half         -- C.POLY
  fcr : Byte          -- C.FCR
  prim : Byte         -- C.PRIM
  nroots : Byte       -- C.NROOTS
  pad : Byte          -- C.PAD
  nn : Byte           -- C.NN
  k : Byte            -- C.K
  iprim : Byte        -- C.IPRIM
  deriving DecidableEq, Repr

namespace Config

/-- The spec's identity string (rule R1). No register holds it (92_eei_decisions.md D26). -/
def identity : String := "RSENC-LQR-v7"

/-- MAX_SYMW (rule R7): the largest symbol width INIT accepts. -/
def maxSymw : Nat := 8

/-- NN_MAX (rule R7): the largest block length, 2^MAX_SYMW - 1. -/
def nnMax : Nat := 2 ^ maxSymw - 1

/-- TABLE_DEPTH (rule R7): entries of each of LOG, ALOG, GENPOLY. -/
def tableDepth : Nat := 256

/-- BUF_DEPTH (rule R7): entries of each of DATA, PARITY. -/
def bufDepth : Nat := 256

/-- CMD_STALL_CYCLES(op, cfg) (rules R7 and R106): how many bus cycles a CMD write stalls.
OPEN in the spec and read by no rule, so it has no body and no definition of the model reads it
(log entry 13). -/
opaque cmdStallCycles : BitVec 4 → ActiveConfig → Nat

end Config

end Sys2Proof
end

