-- ==== Sys2Proof/Machine/State.lean ====
section
/-! DEFINITION. The state of RSENC as plain data (10_state.md rules R12 to R29), the reasons a step can
stop, and the state after reset (70_reset_and_hazards.md rule R101). -/

namespace Sys2Proof.Machine

/-- A table RAM (LOG, ALOG or GENPOLY): 256 entries of 8 bits (rules R21 to R23), held as (index, entry)
pairs, indices strictly rising. An index that is not listed reads as `Table.unlisted`, which is 0, and no
listed entry is 0. -/
abbrev Table := List Host.Cell

/-- A buffer RAM (DATA or PARITY): 256 entries, each none or 8 bits (rules R24 and R25), held as the written
(index, entry) pairs, indices strictly rising. An index that is not listed reads as `Memory.unlisted`. -/
abbrev Memory := List Host.Cell

/-- The six parameter registers (rules R12 to R17). -/
structure Params where
  symw : Half
  poly : Half
  fcr : Half
  prim : Half
  nroots : Half
  pad : Half
  deriving DecidableEq, Repr

/-- STATUS (rule R19); the reserved bits have no storage. -/
structure Status where
  valid : Bool
  iprimValid : Bool
  err : BitVec 4
  deriving DecidableEq, Repr

/-- A request of the host: a transaction word (rule R37), or a byte addressed request through the bridge
of rules R32 and R34, with its size in bytes. -/
inductive BusRequest where
  | word (t : TWord)
  | byteRead (addr : ByteAddr) (size : Nat)
  | byteWrite (addr : ByteAddr) (size : Nat) (data : Word)
  deriving DecidableEq, Repr

/-- The model fault reasons of 60_exceptions.md rule R95. Each is SAFE: the machine stops where the
hardware's behaviour is unspecified, so nothing can be proved of it. -/
inductive Fault where
  /-- Raised by ENCODE when STATUS.VALID = 0 (rule R62). Safe. -/
  | encodeNotInitialized
  /-- Raised by ENCODE when cfg.nroots >= 1 and DATA[i] = none for some i < cfg.k, lowest i first (rule R62). Safe. -/
  | encodeDataUnwritten (i : Nat)
  /-- Raised by ENCODE when cfg.nroots >= 1 and DATA[i] > cfg.nn for some i < cfg.k, lowest i first (rule R62). Safe. -/
  | encodeSymbolRange (i : Nat)
  /-- Raised by RD of a DATA or PARITY entry nothing has written (rule R85). Safe. -/
  | readUnwritten (waddr : WAddr)
  /-- Raised by the model's bus on a byte addressed request that is not one aligned 32-bit word (rule R34). Safe. -/
  | busRequestRefused
  deriving DecidableEq, Repr

/-- The refusals. No step of this model ends in one: every row of the opcode table has its meaning. -/
inductive Refusal where
  /-- Would be raised by an arm of `exec` whose instruction has no meaning yet; no arm raises it. Safe. -/
  | notModelled (mnemonic : String)
  deriving DecidableEq, Repr

/-- The whole state (rule R29), then the model's own two fields for the host's side of the bus
(`pending`: log entry 1; `response`: log entry 2). -/
structure State where
  params : Params
  cfg : ActiveConfig
  status : Status
  log : Table
  alog : Table
  genpoly : Table
  data : Memory
  parity : Memory
  fault : Option Fault
  pending : List BusRequest
  response : Option Word
  deriving DecidableEq, Repr

/-- The state after reset (rules R29 and R101). The tables are unobservable while VALID = 0 and hold
0 everywhere, as rule R29 says (log entry 7); `pending` and `response` are the model's own (log entries 1 and 2). -/
def State.reset : State where
  params := ⟨0, 0, 0, 0, 0, 0⟩
  cfg := ⟨0, 0, 0, 0, 0, 0, 0, 0, 0⟩
  status := ⟨false, false, 0⟩
  log := []
  alog := []
  genpoly := []
  data := []
  parity := []
  fault := none
  pending := []
  response := none

end Sys2Proof.Machine
end

