-- ==== Sys2Proof/Machine/Flags.lean ====
section
/-! DEFINITION. STATUS: its bus word and its error codes (10_state.md rule R19, 60_exceptions.md rules
R91 and R93). RSENC has no other flag (rule R28). -/

namespace Sys2Proof.Machine

/-- The error codes of rule R91. Codes 4 .. 15 are never produced. -/
inductive ErrCode where
  | none
  | invalidParameter
  | nonPrimitivePolynomial
  | illegalCommand
  deriving DecidableEq, Repr

/-- The value of an error code in STATUS.ERR (rule R91). -/
def ErrCode.code : ErrCode → BitVec 4
  | .none => 0
  | .invalidParameter => 1
  | .nonPrimitivePolynomial => 2
  | .illegalCommand => 3

/-- The bus word of STATUS: ERR << 4 | IPRIM_VALID << 1 | VALID, the reserved bits 0 (rules R19 and R85). -/
def Status.busWord (st : Status) : Word :=
  (st.err.setWidth 32 <<< 4) ||| ((BitVec.ofBool st.iprimValid).setWidth 32 <<< 1)
    ||| (BitVec.ofBool st.valid).setWidth 32

/-- STATUS with ERR written. -/
def Status.withErr (st : Status) (c : ErrCode) : Status := { st with err := c.code }

end Sys2Proof.Machine
end

