-- ==== Sys2Proof/Machine/Operands.lean ====
section
/-! DEFINITION. Operand assembly (30_encoding.md rule R38) and the address map (20_memory.md rule R31). -/

namespace Sys2Proof.Machine

/-- The parameter registers of rules R12 to R17, in address order. -/
inductive ParamReg where
  | symw | poly | fcr | prim | nroots | pad
  deriving DecidableEq, Repr

/-- The configuration mirrors C.* of rule R18, in address order. -/
inductive CfgReg where
  | symw | poly | fcr | prim | nroots | pad | nn | k | iprim
  deriving DecidableEq, Repr

/-- What a word address names (rule R31). -/
inductive Target where
  | cmd
  | status
  | param (r : ParamReg)
  | cfg (r : CfgReg)
  | log (x : Byte)
  | alog (i : Byte)
  | genpoly (j : Byte)
  | data (i : Byte)
  | parity (j : Byte)
  | reserved
  deriving DecidableEq, Repr

/-- WADDR[7:0]: the index of a table or buffer entry (rule R38). -/
def entryIndex (a : WAddr) : Byte := a.extractLsb' 0 8

/-- WADDR[10:8]: the region (rule R38). -/
def regionOf (a : WAddr) : BitVec 3 := a.extractLsb' 8 3

/-- The control registers, region 0 of rule R31, by WADDR[7:0]. -/
def controlTarget (n : Nat) : Target :=
  match n with
  | 0x00 => .cmd
  | 0x01 => .status
  | 0x04 => .param .symw
  | 0x05 => .param .poly
  | 0x06 => .param .fcr
  | 0x07 => .param .prim
  | 0x08 => .param .nroots
  | 0x09 => .param .pad
  | 0x10 => .cfg .symw
  | 0x11 => .cfg .poly
  | 0x12 => .cfg .fcr
  | 0x13 => .cfg .prim
  | 0x14 => .cfg .nroots
  | 0x15 => .cfg .pad
  | 0x16 => .cfg .nn
  | 0x17 => .cfg .k
  | 0x18 => .cfg .iprim
  | _ => .reserved

/-- The address map of rule R31: the region selects an array or the control registers (rule R38). -/
def targetOf (a : WAddr) : Target :=
  match (regionOf a).toNat with
  | 0 => controlTarget (entryIndex a).toNat
  | 1 => .log (entryIndex a)
  | 2 => .alog (entryIndex a)
  | 3 => .genpoly (entryIndex a)
  | 4 => .data (entryIndex a)
  | 5 => .parity (entryIndex a)
  | _ => .reserved

/-- The word address of a parameter register (rule R31). -/
def ParamReg.waddr : ParamReg → WAddr
  | .symw => 0x004
  | .poly => 0x005
  | .fcr => 0x006
  | .prim => 0x007
  | .nroots => 0x008
  | .pad => 0x009

/-- The word address of a configuration mirror (rule R31). -/
def CfgReg.waddr : CfgReg → WAddr
  | .symw => 0x010
  | .poly => 0x011
  | .fcr => 0x012
  | .prim => 0x013
  | .nroots => 0x014
  | .pad => 0x015
  | .nn => 0x016
  | .k => 0x017
  | .iprim => 0x018

/-- The word address of DATA[i] (rule R31). -/
def dataWaddr (i : Byte) : WAddr := 0x400 + i.setWidth 11

/-- The word address of PARITY[j] (rule R31). -/
def parityWaddr (j : Byte) : WAddr := 0x500 + j.setWidth 11

/-- The written value of a parameter register: WDATA[15:0] (rule R38). -/
def paramOperand (v : Word) : Half := v.extractLsb' 0 16

/-- The written value of a buffer entry: WDATA[7:0] (rule R38). -/
def symbolOperand (v : Word) : Byte := v.extractLsb' 0 8

/-- zext_32 (rules R8 and R38): every value a read returns is zero-extended. -/
def zext32 {n : Nat} (v : BitVec n) : Word := v.setWidth 32

/-- The field of a parameter register (rules R12 to R17). -/
def Params.field (p : Params) : ParamReg → Half
  | .symw => p.symw
  | .poly => p.poly
  | .fcr => p.fcr
  | .prim => p.prim
  | .nroots => p.nroots
  | .pad => p.pad

/-- The parameter registers with one of them written. -/
def Params.withField (p : Params) (r : ParamReg) (v : Half) : Params :=
  match r with
  | .symw => { p with symw := v }
  | .poly => { p with poly := v }
  | .fcr => { p with fcr := v }
  | .prim => { p with prim := v }
  | .nroots => { p with nroots := v }
  | .pad => { p with pad := v }

/-- The bus value of a configuration mirror (rules R18 and R31). -/
def cfgBusValue (c : ActiveConfig) : CfgReg → Word
  | .symw => zext32 c.m
  | .poly => zext32 c.poly
  | .fcr => zext32 c.fcr
  | .prim => zext32 c.prim
  | .nroots => zext32 c.nroots
  | .pad => zext32 c.pad
  | .nn => zext32 c.nn
  | .k => zext32 c.k
  | .iprim => zext32 c.iprim

end Sys2Proof.Machine
end

