-- ==== Sys2Proof/Machine/Ops.lean ====
section
/-! DEFINITION. The named operations over memory, tables, registers and the bus queue. -/

namespace Sys2Proof.Machine

/-! ## Cells: the one form in which RAM is held -/

/-- The cell listed at an index. -/
def findCell : List Host.Cell → Nat → Option Byte
  | [], _ => none
  | (b, v) :: m, a => if a = b then some v else findCell m a

/-- The cells with one listed or replaced; the indices stay strictly rising. -/
def insertCell : List Host.Cell → Nat → Byte → List Host.Cell
  | [], a, v => [(a, v)]
  | (b, w) :: m, a, v =>
    if a < b then (a, v) :: (b, w) :: m
    else if a = b then (a, v) :: m
    else (b, w) :: insertCell m a v

/-- The cells with an index no longer listed. -/
def removeCell (m : List Host.Cell) (a : Nat) : List Host.Cell := m.filter (fun c => c.1 != a)

/-- Indices strictly rising and below 256. -/
def risingCells (m : List Host.Cell) : Bool :=
  decide (m.Pairwise (fun x y => x.1 < y.1)) && m.all (fun c => decide (c.1 < 256))

/-! ## Buffers (rules R24 and R25) -/

/-- What a buffer entry nothing has written since reset reads as: `none` (rules R24 and R25). -/
def Memory.unlisted : Option Byte := none

/-- One entry of a buffer. -/
def Memory.read (m : Memory) (a : Nat) : Option Byte :=
  match findCell m a with
  | some v => some v
  | none => Memory.unlisted

/-- A buffer with one entry written. -/
def Memory.write (m : Memory) (a : Nat) (v : Byte) : Memory := insertCell m a v

/-- A buffer with the values written to consecutive entries from `base` on. -/
def Memory.writeList : Memory → Nat → List Byte → Memory
  | m, _, [] => m
  | m, base, v :: vs => Memory.writeList (Memory.write m base v) (base + 1) vs

/-- The canonical form of a buffer. No listed entry equals what an unlisted index reads as, since that is
`none`. -/
def Memory.wf (m : Memory) : Bool := risingCells m

/-! ## Tables (rules R21 to R23) -/

/-- What a table entry that is not listed reads as: 0 (rules R21 to R23, R29 and R81). -/
def Table.unlisted : Byte := 0

/-- One table entry. -/
def Table.entry (t : Table) (i : Nat) : Byte := (findCell t i).getD Table.unlisted

/-- A table with one entry written; writing 0 takes the index off the list. -/
def Table.put (t : Table) (i : Nat) (v : Byte) : Table :=
  if v = Table.unlisted then removeCell t i else insertCell t i v

/-- The table whose entry at each index 0 .. 255 is given. -/
def Table.ofEntries (f : Nat → Byte) : Table :=
  (List.range Config.tableDepth).filterMap
    (fun i => if f i = Table.unlisted then none else some (i, f i))

/-- A table of zeros. -/
def Table.zero : Table := []

/-- The canonical form of a table: no listed entry is 0. -/
def Table.wf (t : Table) : Bool := risingCells t && t.all (fun c => c.2 != Table.unlisted)

/-! ## Errors and faults (60_exceptions.md) -/

/-- set_err(code) (rule R93): writes STATUS.ERR and nothing else. -/
def State.setErr (s : State) (c : ErrCode) : State := { s with status := s.status.withErr c }

/-- raise Fault(reason) (rules R8 and R95). RSENC takes no trap: nothing is saved and no address is taken
(rule R97), so the machine stops with the reason. -/
def raiseFault (r : Fault) : Host.Outcome State Fault Refusal := .fault r

/-- The faulted state of rule R26: the reason is recorded and nothing else changes (log entry 4). -/
def State.recordFault (s : State) (r : Fault) : State := { s with fault := some r }

/-- The state an outcome leaves the machine in: a fault is recorded and nothing else changes (rule R26,
log entry 4). -/
def State.after (s : State) (o : Host.Outcome State Fault Refusal) : State :=
  match o with
  | .next t => t
  | .fault r => s.recordFault r
  | .refused _ => s

/-! ## Registers and buffers of the state -/

/-- P.<reg> <- v (rule R86). -/
def State.writeParam (s : State) (r : ParamReg) (v : Half) : State :=
  { s with params := s.params.withField r v }

/-- DATA[i] <- v (rule R86). -/
def State.writeData (s : State) (i : Byte) (v : Byte) : State :=
  { s with data := Memory.write s.data i.toNat v }

/-- PARITY[j] <- v (rule R86). -/
def State.writeParity (s : State) (j : Byte) (v : Byte) : State :=
  { s with parity := Memory.write s.parity j.toNat v }

/-- PARITY[0 .. n-1] <- p[0 .. n-1] (rules R64 and R66). -/
def State.writeParityAll (s : State) (p : List Byte) : State :=
  { s with parity := Memory.writeList s.parity 0 p }

/-- The word an access returned (rule R30; log entry 2). -/
def State.respond (s : State) (v : Word) : State := { s with response := some v }

/-! ## The bus queue (log entry 1) -/

/-- A byte addressed request is one aligned 32-bit word (rule R34). -/
def alignedWord (addr : ByteAddr) (size : Nat) : Bool := decide (addr.toNat % 4 = 0) && decide (size = 4)

/-- The word address of an aligned byte address: addr / 4 (rule R30). -/
def wordAddrOf (addr : ByteAddr) : WAddr := addr.extractLsb' 2 11

/-- The transaction word of a request. A byte addressed request that is not one aligned 32-bit word is
refused with BusRequestRefused (rules R30, R34 and R95). -/
def BusRequest.toWord : BusRequest → Except Fault TWord
  | .word t => .ok t
  | .byteRead addr size =>
    if alignedWord addr size then .ok (TWord.ofFields false (wordAddrOf addr) 0)
    else .error .busRequestRefused
  | .byteWrite addr size v =>
    if alignedWord addr size then .ok (TWord.ofFields true (wordAddrOf addr) v)
    else .error .busRequestRefused

/-- The state in which the oldest request has been taken off the queue and no answer is there yet. -/
def State.take (s : State) (rest : List BusRequest) : State :=
  { s with pending := rest, response := none }

/-- The state in which the host issues a request next. -/
def State.issue (s : State) (q : BusRequest) : State := { s with pending := q :: s.pending }

/-- What the bus does next (rules R26, R33 and R34): nothing is taken from a faulted state, an idle bus
has nothing to take, a refused request faults, and any other gives the instruction its word decodes to
and the state it runs in. -/
inductive BusEvent where
  | stuck (r : Fault)
  | idle
  | refused (r : Fault)
  | issued (i : Instr) (s : State)
  deriving DecidableEq, Repr

/-- The next bus event of a state. -/
def nextEvent (s : State) : BusEvent :=
  match s.fault with
  | some r => .stuck r
  | none =>
    match s.pending with
    | [] => .idle
    | q :: rest =>
      match q.toWord with
      | .error r => .refused r
      | .ok t => .issued (decodeWord t) (s.take rest)

end Sys2Proof.Machine
end

