-- ==== Sys2Proof/Machine/Control.lean ====
section
/-! DEFINITION. NOP and the reserved command codes (43_initialize_and_control.md rules R83 and R84). -/

namespace Sys2Proof.Machine

/-- NOP changes no state (rule R83). -/
def execNop (s : State) : Host.Outcome State Fault Refusal := .next s

/-- What every reserved command code does: STATUS.ERR <- 3 and nothing else (rule R84). -/
def illegalCommand (s : State) : Host.Outcome State Fault Refusal := .next (s.setErr .illegalCommand)

/-- OP = 0x3 (rule R84). -/
def execRsvdCmd3 (s : State) : Host.Outcome State Fault Refusal := illegalCommand s

/-- OP = 0x4 .. 0x7 (rule R84): every code of the row acts alike. -/
def execRsvdCmd4to7 (_op : BitVec 4) (s : State) : Host.Outcome State Fault Refusal := illegalCommand s

/-- OP = 0x8 .. 0xF (rule R84): every code of the row acts alike. -/
def execRsvdCmd8to15 (_op : BitVec 4) (s : State) : Host.Outcome State Fault Refusal := illegalCommand s

end Sys2Proof.Machine
end

