-- ==== Sys2Proof/Machine/Field.lean ====
section
/-! DEFINITION. Galois field arithmetic and the table builder (40_field_tables.md). -/

namespace Sys2Proof.Machine

/-- nn = 2^m - 1 (rules R41 and R42). -/
def blockLength (m : Nat) : Nat := 2 ^ m - 1

/-- ModReduce(x) = x mod nn (rule R41). -/
def modReduce (nn x : Nat) : Nat := x % nn

/-- Field addition (rule R43). -/
def gfadd (a b : Byte) : Byte := a ^^^ b

/-- The log-domain product LogMul(la, e) = A[ModReduce(la + e)] (rule R45), with no test of la. -/
def logMul (nn : Nat) (alog : Table) (la e : Nat) : Byte :=
  Table.entry alog (modReduce nn (la + e))

/-- Field multiplication (rule R44). -/
def gfmul (nn : Nat) (log alog : Table) (a b : Byte) : Byte :=
  if a = 0 ∨ b = 0 then 0
  else logMul nn alog (Table.entry log a.toNat).toNat (Table.entry log b.toNat).toNat

/-- The local variables of BuildField (rules R27 and R46). -/
structure FieldBuild where
  sr : Nat
  early : Bool
  log : Table
  alog : Table
  deriving DecidableEq, Repr

/-- BuildField's variables before the loop (rule R46). The candidate tables may hold any values; they
start at 0 here (log entry 11). -/
def fieldStart : FieldBuild := ⟨1, false, Table.zero, Table.zero⟩

/-- The shift of rule R46: sr << 1, XOR poly when the bit of weight 2^m is set, AND nn. -/
def fieldShift (m poly sr : Nat) : Nat :=
  (if (sr <<< 1).testBit m then (sr <<< 1) ^^^ poly else sr <<< 1) &&& blockLength m

/-- One iteration of the loop of rule R46. -/
def fieldIteration (m poly : Nat) (b : FieldBuild) (i : Nat) : FieldBuild :=
  { sr := fieldShift m poly b.sr
    early := b.early || (decide (fieldShift m poly b.sr = 1) && decide (i < blockLength m - 1))
    log := Table.put b.log b.sr (BitVec.ofNat 8 i)
    alog := Table.put b.alog i (BitVec.ofNat 8 b.sr) }

/-- BuildField's loop: i in 0 .. nn - 1 (rule R46). -/
def fieldLoop (m poly : Nat) : FieldBuild :=
  (List.range (blockLength m)).foldl (fieldIteration m poly) fieldStart

/-- BuildField(m, poly) (rule R46): the tables (L, A), or `none` for NonPrimitivePolynomial. -/
def buildField (m poly : Nat) : Option (Table × Table) :=
  if (fieldLoop m poly).sr ≠ 1 ∨ (fieldLoop m poly).early = true then none
  else some (Table.put (fieldLoop m poly).log 0 (BitVec.ofNat 8 (blockLength m)),
    Table.put (fieldLoop m poly).alog (blockLength m) 0)

end Sys2Proof.Machine
end

