-- ==== Sys2Proof/Machine/Generator.lean ====
section
/-! DEFINITION. The generator polynomial builder and iprim (41_generator_poly.md). -/

namespace Sys2Proof.Machine

/-- A coefficient of the running polynomial; the list is long enough for every index the rules use
(log entry 10). -/
def coeff (c : List Byte) (j : Nat) : Byte := c.getD j 0

/-- The root exponent e_i = prim * (fcr + i) (rule R50). -/
def rootExponent (fcr prim i : Nat) : Nat := prim * (fcr + i)

/-- The loop over j downto 1 of rule R53: it reads each old c[j-1] before that is overwritten. -/
def generatorDown (nn : Nat) (log alog : Table) (root : Nat) : Nat → List Byte → List Byte
  | 0, c => c
  | j + 1, c =>
    generatorDown nn log alog root j
      (c.set (j + 1)
        (if coeff c (j + 1) ≠ 0 then
          gfadd (coeff c j) (logMul nn alog (Table.entry log (coeff c (j + 1)).toNat).toNat root)
        else coeff c j))

/-- One pass of rule R53: the polynomial of degree i times (x + alpha^root). -/
def generatorPass (nn : Nat) (log alog : Table) (i root : Nat) (c : List Byte) : List Byte :=
  let down := generatorDown nn log alog root i (c.set (i + 1) 1)
  down.set 0 (logMul nn alog (Table.entry log (coeff down 0).toNat).toNat root)

/-- The passes of rule R53 from i on: `count` more passes, root stepping by prim. -/
def generatorPasses (nn : Nat) (log alog : Table) (prim : Nat) : Nat → Nat → Nat → List Byte → List Byte
  | 0, _, _, c => c
  | count + 1, i, root, c =>
    generatorPasses nn log alog prim count (i + 1) (root + prim) (generatorPass nn log alog i root c)

/-- BuildGenerator (rules R52 and R53): the coefficients c[0 .. nroots], c[j] that of x^j. -/
def buildGenerator (nn : Nat) (log alog : Table) (fcr prim nroots : Nat) : List Byte :=
  generatorPasses nn log alog prim nroots 0 (fcr * prim) (1 :: List.replicate nroots 0)

/-- IPrim(nn, prim) (rules R57 and R58): the least i >= 1 with (i * prim) mod nn = 1 mod nn, `none` when
gcd(prim, nn) is not 1. The search ends at nn, where an inverse, if there is one, has been met. -/
def iPrim (nn prim : Nat) : Option Nat :=
  if Nat.gcd prim nn ≠ 1 then none
  else ((List.range nn).map (· + 1)).find? (fun i => decide (modReduce nn (i * prim) = 1 % nn))

end Sys2Proof.Machine
end

