-- ==== Sys2Proof/Machine/Encoder.lean ====
section
/-! DEFINITION. ENCODE (42_encoder.md). -/

namespace Sys2Proof.Machine

/-- The symbols DATA[i], DATA[i+1], ... (`count` of them), or the fault of the first that is unwritten or
above nn, in ascending order (rules R62 and R94). -/
def readSymbols (nn : Nat) (data : Memory) : Nat → Nat → Except Fault (List Byte)
  | _, 0 => .ok []
  | i, count + 1 =>
    match Memory.read data i with
    | none => .error (.encodeDataUnwritten i)
    | some d =>
      if nn < d.toNat then .error (.encodeSymbolRange i)
      else
        match readSymbols nn data (i + 1) count with
        | .error r => .error r
        | .ok ds => .ok (d :: ds)

/-- What the loop of rule R64 reads of the active configuration. -/
structure EncoderTables where
  nn : Nat
  log : Table
  alog : Table
  genpoly : Table
  deriving DecidableEq, Repr

/-- Step 1 of rule R64: the log of DATA[i] XOR p[0]. -/
def feedbackOf (t : EncoderTables) (p : List Byte) (d : Byte) : Nat :=
  (Table.entry t.log (gfadd d (coeff p 0)).toNat).toNat

/-- The tap through G[g]: A[ModReduce(feedback + G[g])], with no test of G[g] (rule R64). -/
def tapOf (t : EncoderTables) (feedback g : Nat) : Byte :=
  logMul t.nn t.alog feedback (Table.entry t.genpoly g).toNat

/-- Step 2 of rule R64: for j in 1 .. n-1, p[j] <- p[j] XOR the tap through G[n - j], unless the feedback
is the sentinel nn. -/
def tapsApplied (t : EncoderTables) (n feedback : Nat) (p : List Byte) : List Byte :=
  if feedback ≠ t.nn then
    (List.range n).map (fun j =>
      if j = 0 then coeff p 0 else gfadd (coeff p j) (tapOf t feedback (n - j)))
  else p

/-- One iteration of rule R64: steps 1 to 4 for the data symbol d. -/
def encodeStep (t : EncoderTables) (n : Nat) (p : List Byte) (d : Byte) : List Byte :=
  (tapsApplied t n (feedbackOf t p d) p).drop 1
    ++ [if feedbackOf t p d ≠ t.nn then tapOf t (feedbackOf t p d) 0 else 0]

/-- The loop of rule R64 over the data symbols, from an all-zero working register p[0 .. n-1]. -/
def encodeRun (t : EncoderTables) (n : Nat) (ds : List Byte) : List Byte :=
  ds.foldl (encodeStep t n) (List.replicate n 0)

/-- The configuration as ENCODE reads it (rule R60). -/
def State.encoderTables (s : State) : EncoderTables := ⟨s.cfg.nn.toNat, s.log, s.alog, s.genpoly⟩

/-- What an ENCODE may change at most, a violated precondition included: PARITY[0 .. cfg.nroots-1] and
STATUS.ERR may hold any values, and no other state changes (rule R62, last sentence). The model's ENCODE
faults on a violated precondition; this bounds what the hardware does there. -/
def EncodeConfined (s t : State) : Prop :=
  t = { s with parity := t.parity, status := { s.status with err := t.status.err } } ∧
  ∀ j, s.cfg.nroots.toNat ≤ j → Memory.read t.parity j = Memory.read s.parity j

/-- ENCODE: the checks of rule R62, the no-op of rule R63, the loop and the results of rules R64 and R66. -/
def execEncode (s : State) : Host.Outcome State Fault Refusal :=
  if s.status.valid = false then raiseFault .encodeNotInitialized
  else if s.cfg.nroots.toNat = 0 then .next (s.setErr .none)
  else
    match readSymbols s.cfg.nn.toNat s.data 0 s.cfg.k.toNat with
    | .error r => raiseFault r
    | .ok ds =>
      .next ((s.writeParityAll (encodeRun s.encoderTables s.cfg.nroots.toNat ds)).setErr .none)

end Sys2Proof.Machine
end

