-- ==== Sys2Proof/Machine/Init.lean ====
section
/-! DEFINITION. INIT (43_initialize_and_control.md rules R70 to R82). -/

namespace Sys2Proof.Machine

/-- What a successful INIT commits: the active configuration with its tables (rule R81). -/
structure Configuration where
  cfg : ActiveConfig
  iprimValid : Bool
  log : Table
  alog : Table
  genpoly : Table
  deriving DecidableEq, Repr

/-- symbolWidth range (rule R74). -/
def symwInRange (p : Params) : Bool := decide (1 ≤ p.symw.toNat ∧ p.symw.toNat ≤ Config.maxSymw)

/-- nn as INIT derives it from P.SYMW (rule R73). -/
def Params.nn (p : Params) : Nat := blockLength p.symw.toNat

/-- fcr range (rule R75). -/
def fcrInRange (p : Params) : Bool := decide (p.fcr.toNat ≤ p.nn)

/-- prim range (rule R76). -/
def primInRange (p : Params) : Bool := decide (1 ≤ p.prim.toNat ∧ p.prim.toNat ≤ p.nn)

/-- nroots range (rule R77). -/
def nrootsInRange (p : Params) : Bool := decide (p.nroots.toNat ≤ p.nn - 1)

/-- pad range (rule R78). -/
def padInRange (p : Params) : Bool := decide (p.pad.toNat ≤ p.nn - p.nroots.toNat - 1)

/-- The length of the data block: k = nn - nroots - pad (rules R78 and R81). -/
def Params.k (p : Params) : Nat := p.nn - p.nroots.toNat - p.pad.toNat

/-- The commit of rule R81 as one value: the tables zero-filled, the nine cfg fields, IPRIM_VALID. -/
def configurationOf (p : Params) (log alog : Table) (c : List Byte) (ip : Option Nat) : Configuration where
  cfg :=
    { m := BitVec.ofNat 4 p.symw.toNat
      poly := p.poly
      fcr := BitVec.ofNat 8 p.fcr.toNat
      prim := BitVec.ofNat 8 p.prim.toNat
      nroots := BitVec.ofNat 8 p.nroots.toNat
      pad := BitVec.ofNat 8 p.pad.toNat
      nn := BitVec.ofNat 8 p.nn
      k := BitVec.ofNat 8 p.k
      iprim := BitVec.ofNat 8 (ip.getD 0) }
  iprimValid := ip.isSome
  log := Table.ofEntries (fun x => if x ≤ p.nn then Table.entry log x else 0)
  alog := Table.ofEntries (fun i => if i ≤ p.nn then Table.entry alog i else 0)
  genpoly := Table.ofEntries
    (fun j => if j ≤ p.nroots.toNat then Table.entry log (coeff c j).toNat else 0)

/-- What INIT computes from the six parameter registers alone (rules R70, R73, R80 and R87): the
configuration to commit, or the error code. -/
def initResult (p : Params) : Except ErrCode Configuration :=
  if symwInRange p = false then .error .invalidParameter
  else if fcrInRange p = false then .error .invalidParameter
  else if primInRange p = false then .error .invalidParameter
  else if nrootsInRange p = false then .error .invalidParameter
  else if padInRange p = false then .error .invalidParameter
  else
    match buildField p.symw.toNat p.poly.toNat with
    | none => .error .nonPrimitivePolynomial
    | some (log, alog) =>
      .ok (configurationOf p log alog
        (buildGenerator p.nn log alog p.fcr.toNat p.prim.toNat p.nroots.toNat)
        (iPrim p.nn p.prim.toNat))

/-- The atomic commit of rule R81: the whole configuration is replaced, VALID is set, ERR is 0. -/
def State.commit (s : State) (c : Configuration) : State :=
  { s with
    cfg := c.cfg
    log := c.log
    alog := c.alog
    genpoly := c.genpoly
    status := ⟨true, c.iprimValid, ErrCode.none.code⟩ }

/-- INIT (rule R73): a failure writes STATUS.ERR and nothing else (rule R82). -/
def execInit (s : State) : Host.Outcome State Fault Refusal :=
  match initResult s.params with
  | .error e => .next (s.setErr e)
  | .ok c => .next (s.commit c)

end Sys2Proof.Machine
end

