-- ==== Sys2Proof/Machine/Bus.lean ====
section
/-! DEFINITION. The two host bus accesses RD and WR (43_initialize_and_control.md rules R85 and R86). -/

namespace Sys2Proof.Machine

/-- A table entry as the bus shows it: 0 while STATUS.VALID = 0 (rules R21 to R23 and R85). -/
def tableBusValue (s : State) (t : Table) (x : Byte) : Word :=
  if s.status.valid then zext32 (Table.entry t x.toNat) else 0

/-- A buffer entry as the bus shows it; an unwritten entry faults (rule R85). -/
def bufferBusValue (m : Memory) (i : Byte) (a : WAddr) : Except Fault Word :=
  match Memory.read m i.toNat with
  | none => .error (.readUnwritten a)
  | some v => .ok (zext32 v)

/-- BusRead(waddr) (rule R85). -/
def busRead (s : State) (a : WAddr) : Except Fault Word :=
  match targetOf a with
  | .cmd => .ok 0
  | .status => .ok s.status.busWord
  | .param r => .ok (zext32 (s.params.field r))
  | .cfg r => .ok (cfgBusValue s.cfg r)
  | .log x => .ok (tableBusValue s s.log x)
  | .alog i => .ok (tableBusValue s s.alog i)
  | .genpoly j => .ok (tableBusValue s s.genpoly j)
  | .data i => bufferBusValue s.data i a
  | .parity j => bufferBusValue s.parity j a
  | .reserved => .ok 0

/-- The command v[3:0] of a write to CMD (rules R36 and R86). -/
def runCommand (op : BitVec 4) (s : State) : Host.Outcome State Fault Refusal :=
  match op.toNat with
  | 0 => execNop s
  | 1 => execInit s
  | 2 => execEncode s
  | 3 => execRsvdCmd3 s
  | 4 | 5 | 6 | 7 => execRsvdCmd4to7 op s
  | _ => execRsvdCmd8to15 op s

/-- BusWrite(waddr, v) (rule R86): every address outside CMD, P.*, DATA and PARITY ignores the write. -/
def busWrite (a : WAddr) (v : Word) (s : State) : Host.Outcome State Fault Refusal :=
  match targetOf a with
  | .cmd => runCommand (commandOp v) s
  | .param r => .next (s.writeParam r (paramOperand v))
  | .data i => .next (s.writeData i (symbolOperand v))
  | .parity j => .next (s.writeParity j (symbolOperand v))
  | .status | .cfg _ | .log _ | .alog _ | .genpoly _ | .reserved => .next s

/-- WR (rule R86). The term `wr 0 v`, which no word decodes to, is the BusWrite to CMD (log entry 9). -/
def execWr (a : WAddr) (v : Word) (s : State) : Host.Outcome State Fault Refusal := busWrite a v s

/-- RD (rule R85): the word is the access's answer and no other state changes. -/
def execRd (a : WAddr) (s : State) : Host.Outcome State Fault Refusal :=
  match busRead s a with
  | .error r => raiseFault r
  | .ok v => .next (s.respond v)

end Sys2Proof.Machine
end

