-- ==== Sys2Proof/Machine/Dispatch.lean ====
section
/-! DEFINITION. One arm per constructor of Instr (spec/opcode_table.json). -/

namespace Sys2Proof.Machine

def exec (i : Instr) (s : State) : Host.Outcome State Fault Refusal :=
  match i with
  -- commands: 43_initialize_and_control.md rules R73, R83 and R84, 42_encoder.md rule R62
  | .nop => Sys2Proof.Machine.execNop s
  | .init => Sys2Proof.Machine.execInit s
  | .encode => Sys2Proof.Machine.execEncode s
  | .rsvdCmd3 => Sys2Proof.Machine.execRsvdCmd3 s
  | .rsvdCmd4to7 op => Sys2Proof.Machine.execRsvdCmd4to7 op s
  | .rsvdCmd8to15 op => Sys2Proof.Machine.execRsvdCmd8to15 op s
  -- host bus accesses: 43_initialize_and_control.md rules R85 and R86
  | .wr waddr wdata => Sys2Proof.Machine.execWr waddr wdata s
  | .rd waddr => Sys2Proof.Machine.execRd waddr s

end Sys2Proof.Machine
end

