-- ==== Sys2Proof/Machine/Step.lean ====
section
/-! DEFINITION. One step: one bus access of the host, a command included (20_memory.md rule R33). -/

namespace Sys2Proof.Machine

/-- One step. No step is taken from a faulted state (rule R26); an idle bus changes nothing (log entry 3);
else the oldest request takes effect whole (rule R33). -/
def step (s : State) : Host.Outcome State Fault Refusal :=
  match nextEvent s with
  | .stuck r => raiseFault r
  | .idle => .next s
  | .refused r => raiseFault r
  | .issued i t => exec i t

/-- The machine's state after one step, the faulted state included (rules R26 and R95). -/
def advance (s : State) : State := s.after (step s)

/-- The state with the transaction word `w` issued by the host as its next access (log entry 1). A
transaction word is 44 bits whatever `_nbits` says (rule R37). -/
def State.withFetchWord (s : State) (_nbits w : Nat) : State := s.issue (.word (BitVec.ofNat 44 w))

end Sys2Proof.Machine
end

