-- ==== Sys2Proof/Machine/Assembler.lean ====
section
/-! DEFINITION. The host assembly of 30_encoding.md rule R40: its lines, their text and the transaction
words they stand for. -/

namespace Sys2Proof.Machine

/-- One line of host assembly (rule R40): the two bus accesses and the six pseudo-instructions. The value
an annotated `rd` line carries is no part of its machine code. -/
inductive AsmLine where
  | wr (waddr : WAddr) (v : Word)
  | rd (waddr : WAddr) (expected : Option Word)
  | nop
  | init
  | encode
  | params (m poly fcr prim nroots pad : Word)
  | load (vs : List Word)
  | dump (n : Nat)
  deriving DecidableEq, Repr

/-- wr <target>, <value> (rules R37 and R40). -/
def asmWr (a : WAddr) (v : Word) : TWord := TWord.ofFields true a v

/-- rd <target> (rules R37 and R40). -/
def asmRd (a : WAddr) : TWord := TWord.ofFields false a 0

/-- The expansion table of rule R40: the transaction words of a line. -/
def AsmLine.expand : AsmLine → List TWord
  | .wr a v => [asmWr a v]
  | .rd a _ => [asmRd a]
  | .nop => [asmWr 0x000 0x0]
  | .init => [asmWr 0x000 0x1]
  | .encode => [asmWr 0x000 0x2]
  | .params m poly fcr prim nroots pad =>
    [asmWr ParamReg.symw.waddr m, asmWr ParamReg.poly.waddr poly, asmWr ParamReg.fcr.waddr fcr,
      asmWr ParamReg.prim.waddr prim, asmWr ParamReg.nroots.waddr nroots, asmWr ParamReg.pad.waddr pad]
  | .load vs => vs.zipIdx.map (fun x => asmWr (dataWaddr (BitVec.ofNat 8 x.2)) x.1)
  | .dump n => (List.range n).map (fun j => asmRd (parityWaddr (BitVec.ofNat 8 j)))

/-- The requests a program issues, line after line. -/
def assembleLines (ls : List AsmLine) : List BusRequest :=
  (ls.flatMap AsmLine.expand).map BusRequest.word

/-! ## The text of a line (log entry 15) -/

/-- A finished token, if it holds a character; `acc` holds it backwards. -/
def asmToken (acc : List Char) : List (List Char) := if acc.isEmpty then [] else [acc.reverse]

/-- The tokens of a line: blanks and commas separate, `;` starts a comment. -/
def asmTokens : List Char → List Char → List (List Char)
  | [], acc => asmToken acc
  | c :: cs, acc =>
    if c = ';' then asmToken acc
    else if c = ' ' ∨ c = '\t' ∨ c = ',' then asmToken acc ++ asmTokens cs []
    else asmTokens cs (c :: acc)

/-- The value of a digit in a base up to 16. -/
def asmDigit (base : Nat) (c : Char) : Option Nat :=
  let n := c.toNat
  let d :=
    if 48 ≤ n ∧ n ≤ 57 then n - 48
    else if 97 ≤ n ∧ n ≤ 102 then n - 87
    else if 65 ≤ n ∧ n ≤ 70 then n - 55
    else 16
  if d < base then some d else none

/-- The value of a run of digits. -/
def asmDigits (base : Nat) : Nat → List Char → Option Nat
  | acc, [] => some acc
  | acc, c :: cs =>
    match asmDigit base c with
    | none => none
    | some d => asmDigits base (acc * base + d) cs

/-- A decimal or 0x hexadecimal number. -/
def asmNumber (cs : List Char) : Option Nat :=
  match cs with
  | [] => none
  | '0' :: 'x' :: c :: ds => asmDigits 16 0 (c :: ds)
  | c :: ds => asmDigits 10 0 (c :: ds)

/-- <value>: a number below 2^32. -/
def asmValue (cs : List Char) : Option Word :=
  match asmNumber cs with
  | none => none
  | some v => if v < 2 ^ 32 then some (BitVec.ofNat 32 v) else none

/-- The register names of rule R40, with their addresses (rule R31). -/
def asmRegisters : List (String × WAddr) :=
  [ ("CMD", 0x000), ("STATUS", 0x001),
    ("P.SYMW", 0x004), ("P.POLY", 0x005), ("P.FCR", 0x006),
    ("P.PRIM", 0x007), ("P.NROOTS", 0x008), ("P.PAD", 0x009),
    ("C.SYMW", 0x010), ("C.POLY", 0x011), ("C.FCR", 0x012), ("C.PRIM", 0x013), ("C.NROOTS", 0x014),
    ("C.PAD", 0x015), ("C.NN", 0x016), ("C.K", 0x017), ("C.IPRIM", 0x018) ]

/-- The array names of rule R40, with their base addresses (rule R31). -/
def asmArrays : List (String × WAddr) :=
  [("LOG", 0x100), ("ALOG", 0x200), ("GENPOLY", 0x300), ("DATA", 0x400), ("PARITY", 0x500)]

/-- The address a name stands for in a list of names. -/
def asmLookup (names : List (String × WAddr)) (cs : List Char) : Option WAddr :=
  (names.find? (fun x => x.1.toList == cs)).map Prod.snd

/-- An array element NAME[index], its index below 256. -/
def asmElement (cs : List Char) : Option WAddr :=
  match cs.dropWhile (· != '[') with
  | [] => none
  | _ :: rest =>
    match rest.getLast?, asmNumber rest.dropLast, asmLookup asmArrays (cs.takeWhile (· != '[')) with
    | some ']', some i, some base => if i < 256 then some (base + BitVec.ofNat 11 i) else none
    | _, _, _ => none

/-- <target>: a register, an array element or a raw word address @number. -/
def asmTarget (cs : List Char) : Option WAddr :=
  match cs with
  | '@' :: ds =>
    match asmNumber ds with
    | none => none
    | some a => if a < 2 ^ 11 then some (BitVec.ofNat 11 a) else none
  | _ =>
    match asmLookup asmRegisters cs with
    | some a => some a
    | none => asmElement cs

/-- A list of values, all of them well written. -/
def asmValues : List (List Char) → Option (List Word)
  | [] => some []
  | t :: ts =>
    match asmValue t, asmValues ts with
    | some v, some vs => some (v :: vs)
    | _, _ => none

/-- A line after its first word: `wr` and `rd`, and the pseudo-instructions with operands. -/
def asmOperands (op : String) (args : List (List Char)) : Option AsmLine :=
  if op = "wr" then
    match args with
    | [t, v] =>
      match asmTarget t, asmValue v with
      | some a, some w => some (.wr a w)
      | _, _ => none
    | _ => none
  else if op = "rd" then
    match args with
    | [t] => (asmTarget t).map (fun a => .rd a none)
    | [t, arrow, v] =>
      if arrow = ['=', '>'] then
        match asmTarget t, asmValue v with
        | some a, some w => some (.rd a (some w))
        | _, _ => none
      else none
    | _ => none
  else if op = "params" then
    match asmValues args with
    | some [m, poly, fcr, prim, nroots, pad] => some (.params m poly fcr prim nroots pad)
    | _ => none
  else if op = "load" then
    match asmValues args with
    | some vs => if 1 ≤ vs.length ∧ vs.length ≤ 256 then some (.load vs) else none
    | none => none
  else if op = "dump" then
    match args with
    | [t] =>
      match asmNumber t with
      | some n => if n ≤ 256 then some (.dump n) else none
      | none => none
    | _ => none
  else none

/-- The line a text stands for: `some none` for a blank or comment line, `none` for a text that is no line. -/
def asmParse (cs : List Char) : Option (Option AsmLine) :=
  match asmTokens cs [] with
  | [] => some none
  | op :: args =>
    let word := String.ofList op
    if args.isEmpty ∧ word = "nop" then some (some .nop)
    else if args.isEmpty ∧ word = "init" then some (some .init)
    else if args.isEmpty ∧ word = "encode" then some (some .encode)
    else (asmOperands word args).map some

end Sys2Proof.Machine
end

