-- ==== Sys2Proof/Safety.lean ====
section
/-! DEFINITION. What counts as a sound state and a safe run, in the terms the statements use. -/

namespace Sys2Proof.Machine

/-- All five RAMs are in canonical form (rules R21 to R25). -/
abbrev State.MemoryOk (s : State) : Prop :=
  Memory.wf s.data = true ∧ Memory.wf s.parity = true
    ∧ Table.wf s.log = true ∧ Table.wf s.alog = true ∧ Table.wf s.genpoly = true

/-- STATUS.ERR holds a code of rule R91 that is produced: 4 .. 15 never are. -/
abbrev State.ErrOk (s : State) : Prop := s.status.err.toNat ≤ 3

/-- The active configuration with its tables, as one value. -/
def State.configuration (s : State) : Configuration :=
  ⟨s.cfg, s.status.iprimValid, s.log, s.alog, s.genpoly⟩

/-- The parameters the configuration mirrors C.SYMW, C.POLY, C.FCR, C.PRIM, C.NROOTS, C.PAD show (rule R18). -/
def mirroredParams (c : ActiveConfig) : Params where
  symw := c.m.setWidth 16
  poly := c.poly
  fcr := c.fcr.setWidth 16
  prim := c.prim.setWidth 16
  nroots := c.nroots.setWidth 16
  pad := c.pad.setWidth 16

/-- The configuration is the reset one while STATUS.VALID = 0 (rules R18 to R23), and else is exactly what
INIT computes from the parameters its own mirrors show (rules R18, R81 and R87). -/
abbrev State.ConfigOk (s : State) : Prop :=
  if s.status.valid = true then initResult (mirroredParams s.cfg) = .ok s.configuration
  else s.configuration = State.reset.configuration

/-- The invariant of the machine. -/
abbrev State.Inv (s : State) : Prop := s.MemoryOk ∧ s.ErrOk ∧ s.ConfigOk

/-- The premise rule R95 asks of a claim about a program: no fault is recorded. -/
abbrev State.FaultFree (s : State) : Prop := s.fault = none

/-- A run of `n` bus accesses that records no fault (rule R95). -/
def FaultFreeRun (n : Nat) (s t : State) : Prop := Host.Core.run Sys2Proof.core n s = .next t

end Sys2Proof.Machine
end

