-- ==== Sys2Proof/Certificates/Slice0/Obligations.lean ====
section
/-! DEFINITION. The statements for the provers. `Sys2Proof.Reference` holds what the rules say in forms
that do not go through the model's own functions. -/

namespace Sys2Proof.Reference

open Sys2Proof.Machine

/-- One step of the sequence of rule R46, sr -> x * sr mod p, on values below 2^m. -/
def shift (m poly v : Nat) : Nat := ((2 * v) ^^^ (if 2 ^ m ≤ 2 * v then poly else 0)) % 2 ^ m

/-- sr_t of rule R46, which is alpha^t (rules R46 and R48). -/
def power (m poly t : Nat) : Nat := (shift m poly)^[t] 1

/-- The sequence of rule R46 first returns to 1 at t = nn. -/
abbrev Primitive (m poly : Nat) : Prop :=
  power m poly (2 ^ m - 1) = 1 ∧ ∀ t, t < 2 ^ m - 1 → 0 < t → power m poly t ≠ 1

/-- The ranges of rules R74 to R78. -/
abbrev InRange (p : Params) : Prop :=
  (1 ≤ p.symw.toNat ∧ p.symw.toNat ≤ 8) ∧
  p.fcr.toNat ≤ 2 ^ p.symw.toNat - 1 ∧
  (1 ≤ p.prim.toNat ∧ p.prim.toNat ≤ 2 ^ p.symw.toNat - 1) ∧
  p.nroots.toNat ≤ 2 ^ p.symw.toNat - 1 - 1 ∧
  p.pad.toNat ≤ 2 ^ p.symw.toNat - 1 - p.nroots.toNat - 1

/-- Polynomial multiplication over GF(2) modulo p(x): the sum of x^i * a over the bits i of b. -/
def product (m poly a b : Nat) : Nat :=
  (List.range m).foldl (fun acc i => if b.testBit i then acc ^^^ (shift m poly)^[i] a else acc) 0

/-- The polynomial c, index = exponent, times (x + r) (rule R51): new[j] = old[j-1] XOR old[j] * r. -/
def timesRoot (nn : Nat) (log alog : Table) (c : List Byte) (r : Byte) : List Byte :=
  (List.range (c.length + 1)).map
    (fun j => (if 0 < j then coeff c (j - 1) else 0) ^^^ gfmul nn log alog (coeff c j) r)

/-- The value at x of the polynomial whose coefficients are given, highest exponent first. -/
def evalHighFirst (nn : Nat) (log alog : Table) (c : List Byte) (x : Byte) : Byte :=
  c.foldl (fun acc a => gfmul nn log alog acc x ^^^ a) 0

/-- The product of two polynomials, index = exponent. -/
def polyMul (nn : Nat) (log alog : Table) (a b : List Byte) : List Byte :=
  (List.range (a.length + b.length - 1)).map
    (fun i => (List.range (i + 1)).foldl
      (fun acc j => acc ^^^ gfmul nn log alog (coeff a j) (coeff b (i - j))) 0)

/-- The coefficients c[0 .. nroots] of the active generator polynomial: c[j] = ALOG[GENPOLY[j]] (rules
R51 and R55; ALOG maps the sentinel nn to 0). -/
def generatorOf (s : State) : List Byte :=
  (List.range (s.cfg.nroots.toNat + 1)).map
    (fun j => Table.entry s.alog (Table.entry s.genpoly j).toNat)

/-- The root alpha^(e_i), e_i = prim * (fcr + i) (rule R50), of the active configuration. -/
def rootOf (s : State) (i : Nat) : Byte :=
  Table.entry s.alog ((s.cfg.prim.toNat * (s.cfg.fcr.toNat + i)) % s.cfg.nn.toNat)

/-- The first entries of a buffer, all of them written. -/
def entriesOf (m : Memory) (n : Nat) : List Byte := (List.range n).map (fun i => (Memory.read m i).getD 0)

/-- The codeword of rule R67, highest exponent first: DATA[0 .. k-1] of the state before ENCODE, then
PARITY[0 .. n-1] of the state after it. -/
def codeword (s t : State) : List Byte :=
  entriesOf s.data s.cfg.k.toNat ++ entriesOf t.parity s.cfg.nroots.toNat

/-- One shift of the n-stage register of rule R65: stage j loads p[j+1] XOR its tap, through G[n-1-j]; the
last stage loads the tap through G[0]; no tap acts when the feedback is the sentinel nn. -/
def registerShift (nn n : Nat) (log alog genpoly : Table) (p : List Byte) (d : Byte) : List Byte :=
  let feedback := (Table.entry log (d ^^^ coeff p 0).toNat).toNat
  (List.range n).map (fun j =>
    (if j + 1 < n then coeff p (j + 1) else 0) ^^^
      (if feedback = nn then 0
        else Table.entry alog ((feedback + (Table.entry genpoly (n - 1 - j)).toNat) % nn)))

/-- The n-stage register after the data symbols, from all zero. -/
def register (nn n : Nat) (log alog genpoly : Table) (ds : List Byte) : List Byte :=
  ds.foldl (registerShift nn n log alog genpoly) (List.replicate n 0)

/-- The fold with a subtraction first that rule R41 allows, while x >= nn, at most `fuel` times. -/
def foldReduce (m : Nat) : Nat → Nat → Nat
  | 0, x => x
  | fuel + 1, x =>
    if x < 2 ^ m - 1 then x
    else foldReduce m fuel (((x - (2 ^ m - 1)) >>> m) + ((x - (2 ^ m - 1)) &&& (2 ^ m - 1)))

/-- The root exponent kept reduced, as rule R54 allows. -/
def reducedRoot (nn fcr prim : Nat) : Nat → Nat
  | 0 => (fcr * prim) % nn
  | i + 1 => (reducedRoot nn fcr prim i + prim) % nn

/-- The case list of rule R85 by word address. -/
def busRead (s : State) (a : WAddr) : Except Fault Word :=
  let n := a.toNat
  let table := fun (t : Table) (x : Nat) =>
    if s.status.valid = true then BitVec.ofNat 32 (Table.entry t x).toNat else 0
  if n = 0x000 then .ok 0
  else if n = 0x001 then
    .ok (BitVec.ofNat 32 (16 * s.status.err.toNat + 2 * s.status.iprimValid.toNat + s.status.valid.toNat))
  else if n = 0x004 then .ok (BitVec.ofNat 32 s.params.symw.toNat)
  else if n = 0x005 then .ok (BitVec.ofNat 32 s.params.poly.toNat)
  else if n = 0x006 then .ok (BitVec.ofNat 32 s.params.fcr.toNat)
  else if n = 0x007 then .ok (BitVec.ofNat 32 s.params.prim.toNat)
  else if n = 0x008 then .ok (BitVec.ofNat 32 s.params.nroots.toNat)
  else if n = 0x009 then .ok (BitVec.ofNat 32 s.params.pad.toNat)
  else if n = 0x010 then .ok (BitVec.ofNat 32 s.cfg.m.toNat)
  else if n = 0x011 then .ok (BitVec.ofNat 32 s.cfg.poly.toNat)
  else if n = 0x012 then .ok (BitVec.ofNat 32 s.cfg.fcr.toNat)
  else if n = 0x013 then .ok (BitVec.ofNat 32 s.cfg.prim.toNat)
  else if n = 0x014 then .ok (BitVec.ofNat 32 s.cfg.nroots.toNat)
  else if n = 0x015 then .ok (BitVec.ofNat 32 s.cfg.pad.toNat)
  else if n = 0x016 then .ok (BitVec.ofNat 32 s.cfg.nn.toNat)
  else if n = 0x017 then .ok (BitVec.ofNat 32 s.cfg.k.toNat)
  else if n = 0x018 then .ok (BitVec.ofNat 32 s.cfg.iprim.toNat)
  else if 0x100 ≤ n ∧ n ≤ 0x1FF then .ok (table s.log (n - 0x100))
  else if 0x200 ≤ n ∧ n ≤ 0x2FF then .ok (table s.alog (n - 0x200))
  else if 0x300 ≤ n ∧ n ≤ 0x3FF then .ok (table s.genpoly (n - 0x300))
  else if 0x400 ≤ n ∧ n ≤ 0x4FF then
    match Memory.read s.data (n - 0x400) with
    | none => .error (.readUnwritten a)
    | some v => .ok (BitVec.ofNat 32 v.toNat)
  else if 0x500 ≤ n ∧ n ≤ 0x5FF then
    match Memory.read s.parity (n - 0x500) with
    | none => .error (.readUnwritten a)
    | some v => .ok (BitVec.ofNat 32 v.toNat)
  else .ok 0

/-- The case list of rule R86 by word address, CMD aside: the state after the write. -/
def busStore (s : State) (a : WAddr) (v : Word) : State :=
  let n := a.toNat
  let h : Half := BitVec.ofNat 16 v.toNat
  let b : Byte := BitVec.ofNat 8 v.toNat
  if n = 0x004 then { s with params := { s.params with symw := h } }
  else if n = 0x005 then { s with params := { s.params with poly := h } }
  else if n = 0x006 then { s with params := { s.params with fcr := h } }
  else if n = 0x007 then { s with params := { s.params with prim := h } }
  else if n = 0x008 then { s with params := { s.params with nroots := h } }
  else if n = 0x009 then { s with params := { s.params with pad := h } }
  else if 0x400 ≤ n ∧ n ≤ 0x4FF then { s with data := Memory.write s.data (n - 0x400) b }
  else if 0x500 ≤ n ∧ n ≤ 0x5FF then { s with parity := Memory.write s.parity (n - 0x500) b }
  else s

/-- The opcode map of rule R36, one code a line; the reserved codes by the opcode table's three rows. -/
def commandInstr (op : BitVec 4) : Instr :=
  match op.toNat with
  | 0x0 => .nop
  | 0x1 => .init
  | 0x2 => .encode
  | 0x3 => .rsvdCmd3
  | 0x4 | 0x5 | 0x6 | 0x7 => .rsvdCmd4to7 op
  | _ => .rsvdCmd8to15 op

/-- The address of a parameter register (rule R31). -/
def paramWaddr : ParamReg → WAddr
  | .symw => 0x004
  | .poly => 0x005
  | .fcr => 0x006
  | .prim => 0x007
  | .nroots => 0x008
  | .pad => 0x009

/-- STATUS.ERR <- code, and nothing else (rule R93). -/
def withErr (s : State) (code : BitVec 4) : State := { s with status := { s.status with err := code } }

end Sys2Proof.Reference

section

open Sys2Proof Sys2Proof.Machine

/-! ## Reset, steps and the bus -/

/-- What reset leaves (rules R29 and R101); a transaction is accepted at once; no step clears VALID or a
recorded fault. The model's choices it rests on: where a read's answer stands (log entry 2), that
`withFetchWord` issues a transaction through the queue (log entry 1), that `advance` gives the faulted state
(log entry 4), and that reset is the state `State.reset` and no step (log entry 14). -/
def Obligations.ResetLeavesTheUninitializedBlock : Prop :=
  State.reset.params = ⟨0, 0, 0, 0, 0, 0⟩ ∧
  State.reset.cfg = ⟨0, 0, 0, 0, 0, 0, 0, 0, 0⟩ ∧
  State.reset.status = ⟨false, false, 0⟩ ∧
  State.reset.fault = none ∧
  (∀ i, Memory.read State.reset.data i = none ∧ Memory.read State.reset.parity i = none) ∧
  (∀ a : WAddr, 0x100 ≤ a.toNat → a.toNat ≤ 0x3FF →
    exec (.rd a) State.reset = .next { State.reset with response := some 0 }) ∧
  (∀ t : TWord, step (State.reset.withFetchWord 44 t.toNat) = exec (decodeWord t) State.reset) ∧
  (∀ s t, step s = .next t → s.status.valid = true → t.status.valid = true) ∧
  (∀ s r, s.fault = some r → (advance s).fault = some r)

/-- A step runs the transaction the oldest request's word decodes to, on the state with that request taken
off the queue and no answer on the bus; an idle bus changes nothing. The queue, the answer and the idle
step are the model's choice (log entries 1, 2 and 3). -/
def Obligations.StepRunsTheDecodedTransaction : Prop :=
  (∀ (s : State) (t : TWord) (rest : List BusRequest), s.fault = none →
    s.pending = .word t :: rest →
    step s = exec (decodeWord t) { s with pending := rest, response := none }) ∧
  (∀ s : State, s.fault = none → s.pending = [] → step s = .next s)

/-- A byte addressed request that is one aligned 32-bit word acts as the transaction word with WADDR = addr
/ 4, and every other one is refused with BusRequestRefused (rules R30 and R34). That a step takes the request
from the model's queue is the model's choice (log entries 1 and 5). -/
def Obligations.ByteRequestsAreWordAccessesOrRefused : Prop :=
  ∀ (s : State) (addr : ByteAddr) (size : Nat) (v : Word) (rest : List BusRequest), s.fault = none →
    (addr.toNat % 4 = 0 → size = 4 →
      (s.pending = .byteRead addr size :: rest →
        step s = step { s with
          pending := .word (BitVec.ofNat 44 (addr.toNat / 4 * 2 ^ 32)) :: rest }) ∧
      (s.pending = .byteWrite addr size v :: rest →
        step s = step { s with
          pending := .word (BitVec.ofNat 44 (2 ^ 43 + addr.toNat / 4 * 2 ^ 32 + v.toNat)) :: rest })) ∧
    (¬(addr.toNat % 4 = 0 ∧ size = 4) →
      (s.pending = .byteRead addr size :: rest ∨ s.pending = .byteWrite addr size v :: rest) →
      step s = .fault .busRequestRefused)

/-- The fault is none at reset, set by the access that raises it and by nothing else, never cleared, and no
step is taken from a faulted state (rule R26). That the faulted state is the state before the access with the
reason recorded, PARITY, STATUS.ERR and the queue kept, is the form of log entry 4 and not the rule's words. -/
def Obligations.AFaultIsRecordedAndSticky : Prop :=
  State.reset.fault = none ∧
  (∀ s r, s.fault = none → step s = .fault r → advance s = { s with fault := some r }) ∧
  (∀ s t, step s = .next t → s.fault = none ∧ t.fault = none ∧ advance s = t) ∧
  (∀ s r, s.fault = some r → step s = .fault r ∧ advance s = s)

/-! ## Encoding -/

/-- A few words of the spec's programs P1 and P2, written out from rule R37, decode to the transactions
they are listed with. -/
def Obligations.ListedWordsDecodeAsListed : Prop :=
  decodeWord 0x80400000008#44 = .wr 0x004 8 ∧
  decodeWord 0x8050000011d#44 = .wr 0x005 0x11d ∧
  decodeWord 0x80000000001#44 = .init ∧
  decodeWord 0x80000000002#44 = .encode ∧
  decodeWord 0x80000000000#44 = .nop ∧
  decodeWord 0x80000000007#44 = .rsvdCmd4to7 7 ∧
  decodeWord 0x00100000000#44 = .rd 0x001 ∧
  decodeWord 0x50900000000#44 = .rd 0x509 ∧
  decodeWord 0xc0f00000011#44 = .wr 0x40f 0x11

/-- Decoding an encoded well-formed instruction gives it back, for every instruction and every operand. -/
def Obligations.DecodingAnEncodedInstructionGivesItBack : Prop :=
  ∀ i : Instr, i.wf = true → decodeWord (encodeInstr i) = i

/-- Every word decodes to a well-formed instruction, whose encoding is the word with the bits that rules R36
and R37 ignore set to 0 and every other bit kept. That the encoder writes those bits as 0 is log entry 12.
-/
def Obligations.EncodingADecodedWordClearsOnlyIgnoredBits : Prop :=
  ∀ t : TWord, (decodeWord t).wf = true ∧
    encodeInstr (decodeWord t) =
      if t.getLsbD 43 = false then t &&& 0xFFF00000000#44
      else if t.extractLsb' 32 11 = 0#11 then t &&& 0xFFF0000000F#44
      else t

/-- Rules R36 and R37: the priority order of decoding, and the opcode map on T[3:0] whatever T[31:4]. -/
def Obligations.DecodingFollowsThePriorityOrder : Prop :=
  ∀ t : TWord,
    (t.getLsbD 43 = false → decodeWord t = .rd (t.extractLsb' 32 11)) ∧
    (t.getLsbD 43 = true → t.extractLsb' 32 11 = 0#11 →
      ((t.extractLsb' 0 4).toNat = 0 → decodeWord t = .nop) ∧
      ((t.extractLsb' 0 4).toNat = 1 → decodeWord t = .init) ∧
      ((t.extractLsb' 0 4).toNat = 2 → decodeWord t = .encode) ∧
      ((t.extractLsb' 0 4).toNat = 3 → decodeWord t = .rsvdCmd3) ∧
      (4 ≤ (t.extractLsb' 0 4).toNat → (t.extractLsb' 0 4).toNat ≤ 7 →
        decodeWord t = .rsvdCmd4to7 (t.extractLsb' 0 4)) ∧
      (8 ≤ (t.extractLsb' 0 4).toNat → decodeWord t = .rsvdCmd8to15 (t.extractLsb' 0 4))) ∧
    (t.getLsbD 43 = true → t.extractLsb' 32 11 ≠ 0#11 →
      decodeWord t = .wr (t.extractLsb' 32 11) (t.extractLsb' 0 32))

/-- The decoder names the first row of spec/opcode_table.json that a word matches. -/
def Obligations.DecodingFollowsTheOpcodeTable : Prop :=
  ∀ t : TWord, tableMnemonic t = some (decodeWord t).mnemonic

/-- Lines of rule R40 expand to words that decode to the accesses they write: `wr` (to CMD, the command
v[3:0] selects; elsewhere WR), `rd`, the command pseudo-instructions, `params`, and `load` and `dump`
element by element, with as many words as they have elements. A load or dump of more than 256 elements,
which only the length clauses cover, is no line of the text (log entry 15). -/
def Obligations.AssemblyLinesDecodeToTheirAccesses : Prop :=
  (∀ (a : WAddr) (v : Word), a ≠ 0 → (AsmLine.wr a v).expand.map decodeWord = [.wr a v]) ∧
  (∀ v : Word, (AsmLine.wr 0 v).expand.map decodeWord = [Reference.commandInstr (v.extractLsb' 0 4)]) ∧
  (∀ (a : WAddr) (e : Option Word), (AsmLine.rd a e).expand.map decodeWord = [.rd a]) ∧
  AsmLine.nop.expand.map decodeWord = [.nop] ∧
  AsmLine.init.expand.map decodeWord = [.init] ∧
  AsmLine.encode.expand.map decodeWord = [.encode] ∧
  (∀ m poly fcr prim nroots pad : Word,
    (AsmLine.params m poly fcr prim nroots pad).expand.map decodeWord =
      [.wr 0x004 m, .wr 0x005 poly, .wr 0x006 fcr, .wr 0x007 prim, .wr 0x008 nroots, .wr 0x009 pad]) ∧
  (∀ vs : List Word, (AsmLine.load vs).expand.length = vs.length) ∧
  (∀ n : Nat, (AsmLine.dump n).expand.length = n) ∧
  (∀ (vs : List Word) (i : Nat) (h : i < vs.length), vs.length ≤ 256 →
    ((AsmLine.load vs).expand.map decodeWord)[i]? = some (.wr (BitVec.ofNat 11 (0x400 + i)) vs[i])) ∧
  (∀ n i : Nat, i < n → n ≤ 256 →
    ((AsmLine.dump n).expand.map decodeWord)[i]? = some (.rd (BitVec.ofNat 11 (0x500 + i))))

/-! ## RD and WR -/

/-- The word a read answers, case by case, or the fault of an unwritten entry; nothing else changes (rule
R85). That the answer stands in the field `response` is the model's choice (log entry 2). -/
def Obligations.AReadAnswersTheAddressedWord : Prop :=
  ∀ (s : State) (a : WAddr), exec (.rd a) s =
    match Reference.busRead s a with
    | .ok v => .next { s with response := some v }
    | .error r => .fault r

/-- A read completes at every address outside DATA and PARITY, and at every written entry of those (rule
R85; an unwritten entry is none, log entry 6). That the word returned stands in the field `response` is the
model's choice (log entry 2). -/
def Obligations.AReadCompletesUnlessTheEntryIsUnwritten : Prop :=
  ∀ (s : State) (a : WAddr),
    (0x400 ≤ a.toNat → a.toNat ≤ 0x4FF → (Memory.read s.data (a.toNat - 0x400)).isSome = true) →
    (0x500 ≤ a.toNat → a.toNat ≤ 0x5FF → (Memory.read s.parity (a.toNat - 0x500)).isSome = true) →
    ∃ v, exec (.rd a) s = .next { s with response := some v }

/-- Rule R86, case by case, from the transaction word: a write to CMD runs the command v[3:0], any other
write stores into its register or entry or has no effect, and always completes. -/
def Obligations.AWriteRunsACommandOrStoresItsValue : Prop :=
  ∀ (s : State) (t : TWord), t.getLsbD 43 = true →
    (t.extractLsb' 32 11 = 0#11 →
      ((t.extractLsb' 0 4).toNat = 0 → exec (decodeWord t) s = .next s) ∧
      ((t.extractLsb' 0 4).toNat = 1 → exec (decodeWord t) s = exec .init s) ∧
      ((t.extractLsb' 0 4).toNat = 2 → exec (decodeWord t) s = exec .encode s) ∧
      (3 ≤ (t.extractLsb' 0 4).toNat → exec (decodeWord t) s = .next (Reference.withErr s 3))) ∧
    (t.extractLsb' 32 11 ≠ 0#11 →
      exec (decodeWord t) s =
        .next (Reference.busStore s (t.extractLsb' 32 11) (t.extractLsb' 0 32)))

/-- WR completes at every address but CMD, stores v[15:0] in the addressed parameter register, or v[7:0] in
the addressed DATA or PARITY entry, and leaves every other register, every other entry and every other field
as it was (rules R38 and R86). -/
def Obligations.AWriteStoresAndLeavesTheRest : Prop :=
  (∀ (s : State) (a : WAddr) (v : Word), a ≠ 0 → ∃ t, exec (.wr a v) s = .next t ∧
    t = { s with params := t.params, data := t.data, parity := t.parity }) ∧
  (∀ (s : State) (a : WAddr) (v : Word), a ≠ 0 → a.toNat < 0x004 ∨ 0x009 < a.toNat →
    ∃ t, exec (.wr a v) s = .next t ∧ t.params = s.params) ∧
  (∀ (s : State) (r : ParamReg) (v : Word), ∃ t, exec (.wr (Reference.paramWaddr r) v) s = .next t ∧
    t.params.field r = v.extractLsb' 0 16 ∧ t.data = s.data ∧ t.parity = s.parity ∧
    ∀ r', r' ≠ r → t.params.field r' = s.params.field r') ∧
  (∀ (s : State) (i : Byte) (v : Word), ∃ t, exec (.wr (BitVec.ofNat 11 (0x400 + i.toNat)) v) s = .next t ∧
    Memory.read t.data i.toNat = some (v.extractLsb' 0 8) ∧ t.parity = s.parity ∧
    ∀ j, j ≠ i.toNat → Memory.read t.data j = Memory.read s.data j) ∧
  (∀ (s : State) (i : Byte) (v : Word), ∃ t, exec (.wr (BitVec.ofNat 11 (0x500 + i.toNat)) v) s = .next t ∧
    Memory.read t.parity i.toNat = some (v.extractLsb' 0 8) ∧ t.data = s.data ∧
    ∀ j, j ≠ i.toNat → Memory.read t.parity j = Memory.read s.parity j) ∧
  (∀ (s : State) (a : WAddr) (v : Word), a ≠ 0 → a.toNat < 0x400 ∨ 0x5FF < a.toNat →
    ∃ t, exec (.wr a v) s = .next t ∧ t.data = s.data ∧ t.parity = s.parity)

/-- A parameter register reads back what was written to it, truncated to 16 bits, and the other five keep
their values (rules R12 to R17 and R38). That the read's answer stands in the field `response` is the
model's choice (log entry 2). -/
def Obligations.AParameterRegisterReadsBackAsWritten : Prop :=
  ∀ (s : State) (r : ParamReg) (v : Word), ∃ t,
    exec (.wr (Reference.paramWaddr r) v) s = .next t ∧
    t.params.field r = v.extractLsb' 0 16 ∧
    (∀ r', r' ≠ r → t.params.field r' = s.params.field r') ∧
    exec (.rd (Reference.paramWaddr r)) t = .next { t with response := some (BitVec.ofNat 32 (v.toNat % 2 ^ 16)) }

/-- Writes to read-only registers, tables and reserved addresses have no effect at all (rules R31 and R86). -/
def Obligations.WritesElsewhereAreIgnored : Prop :=
  ∀ (s : State) (a : WAddr) (v : Word), a ≠ 0 →
    (a.toNat < 0x004 ∨ (0x009 < a.toNat ∧ a.toNat < 0x400) ∨ 0x5FF < a.toNat) →
    exec (.wr a v) s = .next s

/-- Repeating a read gives the same answer and state, and repeating a write to a register or an entry
changes nothing further (rule R34). That the answer is part of the state, in the field `response`, is the
model's choice (log entry 2). -/
def Obligations.RepeatedAccessesAreIdempotent : Prop :=
  (∀ (s t : State) (a : WAddr), exec (.rd a) s = .next t → exec (.rd a) t = .next t) ∧
  (∀ (s t : State) (a : WAddr) (v : Word), a ≠ 0 → exec (.wr a v) s = .next t → exec (.wr a v) t = .next t)

/-! ## NOP and the reserved codes -/

/-- Rule R83: the write of any word with OP = 0 to CMD changes no state. -/
def Obligations.NopChangesNothing : Prop :=
  (∀ s : State, exec .nop s = .next s) ∧
  ∀ (s : State) (t : TWord), t &&& 0xFFF0000000F#44 = 0x80000000000#44 → exec (decodeWord t) s = .next s

/-- Rule R84: every reserved command code sets STATUS.ERR to 3 and changes nothing else. -/
def Obligations.ReservedCodesReportIllegalCommand : Prop :=
  (∀ s : State, exec .rsvdCmd3 s = .next (Reference.withErr s 3)) ∧
  (∀ (s : State) (op : BitVec 4), 4 ≤ op.toNat → op.toNat ≤ 7 →
    exec (.rsvdCmd4to7 op) s = .next (Reference.withErr s 3)) ∧
  (∀ (s : State) (op : BitVec 4), 8 ≤ op.toNat →
    exec (.rsvdCmd8to15 op) s = .next (Reference.withErr s 3)) ∧
  ∀ (s : State) (t : TWord), t.getLsbD 43 = true → t.extractLsb' 32 11 = 0#11 →
    3 ≤ (t.extractLsb' 0 4).toNat → exec (decodeWord t) s = .next (Reference.withErr s 3)

/-! ## INIT -/

/-- Rules R74 to R78 and R80: a parameter outside its range makes INIT report InvalidParameter (whatever
P.POLY is), and an INIT that succeeds leaves k = nn - nroots - pad >= 1. -/
def Obligations.InitRejectsParametersOutOfRange : Prop :=
  (∀ s : State, ¬(1 ≤ s.params.symw.toNat ∧ s.params.symw.toNat ≤ 8) →
    exec .init s = .next (Reference.withErr s 1)) ∧
  (∀ s : State, ¬(s.params.fcr.toNat ≤ 2 ^ s.params.symw.toNat - 1) →
    exec .init s = .next (Reference.withErr s 1)) ∧
  (∀ s : State, ¬(1 ≤ s.params.prim.toNat ∧ s.params.prim.toNat ≤ 2 ^ s.params.symw.toNat - 1) →
    exec .init s = .next (Reference.withErr s 1)) ∧
  (∀ s : State, ¬(s.params.nroots.toNat ≤ 2 ^ s.params.symw.toNat - 1 - 1) →
    exec .init s = .next (Reference.withErr s 1)) ∧
  (∀ s : State, ¬(s.params.pad.toNat ≤ 2 ^ s.params.symw.toNat - 1 - s.params.nroots.toNat - 1) →
    exec .init s = .next (Reference.withErr s 1)) ∧
  (∀ s t : State, exec .init s = .next t → t.status.err = 0 →
    1 ≤ t.cfg.k.toNat ∧ t.cfg.k.toNat + t.cfg.nroots.toNat + t.cfg.pad.toNat = t.cfg.nn.toNat)

/-- With every parameter in range, INIT reports NonPrimitivePolynomial, and changes nothing else, when the
sequence of rule R46 does not first return to 1 at step nn; P.POLY is not range-checked (rule R79). -/
def Obligations.InitRejectsNonPrimitivePolynomials : Prop :=
  ∀ s : State, Reference.InRange s.params →
    ¬ Reference.Primitive s.params.symw.toNat s.params.poly.toNat →
    exec .init s = .next (Reference.withErr s 2)

/-- With every parameter in range and a primitive polynomial INIT completes: VALID = 1, ERR = 0, the nine
configuration fields hold their values exactly (rules R18 and R81), cfg.iprim with IPRIM_VALID among them
(the least inverse of prim modulo nn, or 0 with IPRIM_VALID = 0 when there is none; rules R57 and R58), and
P.*, DATA and PARITY are not touched. The bus fields among the rest are the model's (log entries 1 and 2);
the spec marks the widths of R18 as its own inference ('[derived: ...]'). -/
def Obligations.InitCommitsTheConfiguration : Prop :=
  ∀ s : State, Reference.InRange s.params →
    Reference.Primitive s.params.symw.toNat s.params.poly.toNat →
    ∃ t, exec .init s = .next t ∧
      t = { s with status := t.status, cfg := t.cfg, log := t.log, alog := t.alog, genpoly := t.genpoly } ∧
      t.status.valid = true ∧ t.status.err = 0 ∧
      t.cfg.m.toNat = s.params.symw.toNat ∧
      t.cfg.poly = s.params.poly ∧
      t.cfg.fcr.toNat = s.params.fcr.toNat ∧
      t.cfg.prim.toNat = s.params.prim.toNat ∧
      t.cfg.nroots.toNat = s.params.nroots.toNat ∧
      t.cfg.pad.toNat = s.params.pad.toNat ∧
      t.cfg.nn.toNat = 2 ^ s.params.symw.toNat - 1 ∧
      t.cfg.k.toNat = 2 ^ s.params.symw.toNat - 1 - s.params.nroots.toNat - s.params.pad.toNat ∧
      (Nat.gcd s.params.prim.toNat (2 ^ s.params.symw.toNat - 1) = 1 →
        t.status.iprimValid = true ∧ 1 ≤ t.cfg.iprim.toNat ∧
        (t.cfg.iprim.toNat * s.params.prim.toNat) % (2 ^ s.params.symw.toNat - 1)
          = 1 % (2 ^ s.params.symw.toNat - 1) ∧
        ∀ i, 1 ≤ i → (i * s.params.prim.toNat) % (2 ^ s.params.symw.toNat - 1)
          = 1 % (2 ^ s.params.symw.toNat - 1) → t.cfg.iprim.toNat ≤ i) ∧
      (Nat.gcd s.params.prim.toNat (2 ^ s.params.symw.toNat - 1) ≠ 1 →
        t.status.iprimValid = false ∧ t.cfg.iprim = 0)

/-- Rule R81 for the tables: they hold what the builders give (rules R46, R53 and R55), zero beyond nn and
beyond nroots. -/
def Obligations.InitCommitsTheBuiltTables : Prop :=
  ∀ (s : State) (log alog : Table), Reference.InRange s.params →
    buildField s.params.symw.toNat s.params.poly.toNat = some (log, alog) →
    ∃ t, exec .init s = .next t ∧
      ∀ x, x < 256 →
        Table.entry t.log x = (if x ≤ 2 ^ s.params.symw.toNat - 1 then Table.entry log x else 0) ∧
        Table.entry t.alog x = (if x ≤ 2 ^ s.params.symw.toNat - 1 then Table.entry alog x else 0) ∧
        Table.entry t.genpoly x =
          (if x ≤ s.params.nroots.toNat then
            Table.entry log (coeff (buildGenerator (2 ^ s.params.symw.toNat - 1) log alog
              s.params.fcr.toNat s.params.prim.toNat s.params.nroots.toNat) x).toNat
          else 0)

/-- Rule R82: INIT always completes; when it fails it writes STATUS.ERR (1 or 2) and nothing
else. -/
def Obligations.AFailedInitWritesOnlyErr : Prop :=
  ∀ s : State, ∃ t, exec .init s = .next t ∧
    (t.status.err ≠ 0 → (t.status.err = 1 ∨ t.status.err = 2) ∧ t = Reference.withErr s t.status.err)

/-- Rule R87: what an INIT reports, and on success the whole configuration it leaves, depend only on the six
parameter registers. The spec marks R87's sentence on the outcome as its own inference ('[derived: ...]').
-/
def Obligations.InitDependsOnlyOnTheParameters : Prop :=
  ∀ s₁ s₂ : State, s₁.params = s₂.params →
    ∃ t₁ t₂, exec .init s₁ = .next t₁ ∧ exec .init s₂ = .next t₂ ∧ t₁.status.err = t₂.status.err ∧
      (t₁.status.err = 0 → t₁.status = t₂.status ∧ t₁.cfg = t₂.cfg ∧ t₁.log = t₂.log ∧
        t₁.alog = t₂.alog ∧ t₁.genpoly = t₂.genpoly)

/-- Rules R57 and R58: after a successful INIT with gcd(prim, nn) = 1, C.IPRIM is the least i >= 1 with i *
prim = 1 mod nn, in 1 .. nn - 1 (1 when nn = 1), and i * prim is the least number of the sequence 1, 1 + nn,
... that prim divides; otherwise INIT still succeeds, with C.IPRIM = 0 and IPRIM_VALID = 0. The spec marks
the k of that sequence (R57) as its own inference ('[derived: ...]'). -/
def Obligations.IprimIsTheInverseOrAbsent : Prop :=
  ∀ s : State, Reference.InRange s.params →
    Reference.Primitive s.params.symw.toNat s.params.poly.toNat →
    ∃ t, exec .init s = .next t ∧ t.status.valid = true ∧ t.status.err = 0 ∧
      (Nat.gcd s.params.prim.toNat (2 ^ s.params.symw.toNat - 1) = 1 →
        t.status.iprimValid = true ∧
        1 ≤ t.cfg.iprim.toNat ∧
        (2 ≤ s.params.symw.toNat → t.cfg.iprim.toNat ≤ 2 ^ s.params.symw.toNat - 1 - 1) ∧
        (s.params.symw.toNat = 1 → t.cfg.iprim.toNat = 1) ∧
        (t.cfg.iprim.toNat * s.params.prim.toNat) % (2 ^ s.params.symw.toNat - 1)
          = 1 % (2 ^ s.params.symw.toNat - 1) ∧
        (∀ i, 1 ≤ i → (i * s.params.prim.toNat) % (2 ^ s.params.symw.toNat - 1)
          = 1 % (2 ^ s.params.symw.toNat - 1) → t.cfg.iprim.toNat ≤ i) ∧
        (∀ k, 1 ≤ k → k % (2 ^ s.params.symw.toNat - 1) = 1 % (2 ^ s.params.symw.toNat - 1) →
          s.params.prim.toNat ∣ k → t.cfg.iprim.toNat * s.params.prim.toNat ≤ k)) ∧
      (Nat.gcd s.params.prim.toNat (2 ^ s.params.symw.toNat - 1) ≠ 1 →
        t.status.iprimValid = false ∧ t.cfg.iprim = 0)

/-! ## The field and generator builders -/

/-- BuildField accepts exactly the polynomials whose sequence first returns to 1 at step nn (rules R46 and
R49). The spec marks R49 as its own inference ('[derived: ...]'). -/
def Obligations.TheFieldBuilderAcceptsExactlyPrimitivePolynomials : Prop :=
  ∀ m poly : Nat, 1 ≤ m → m ≤ 8 →
    ((buildField m poly).isSome = true ↔ Reference.Primitive m poly)

/-- Only bits [m-1:0] of poly affect BuildField (rule R47). The spec marks R47 as its own inference
('[derived: ...]'). -/
def Obligations.OnlyTheLowBitsOfThePolynomialMatter : Prop :=
  ∀ m poly poly' : Nat, poly % 2 ^ m = poly' % 2 ^ m → buildField m poly = buildField m poly'

/-- Rule R48, for every table entry: A[i] = alpha^i, A is a permutation of 1 .. nn, L and A invert each
other, the sentinel pair, and L[x] = nn exactly when x = 0; alpha is 2 for m >= 2 and 1 for m = 1. The spec
marks R48 as its own inference ('[derived: ...]'). -/
def Obligations.TheTablesAreLogarithmAndAntilogarithm : Prop :=
  ∀ (m poly : Nat) (log alog : Table), 1 ≤ m → m ≤ 8 → buildField m poly = some (log, alog) →
    (∀ i, i < 2 ^ m - 1 → (Table.entry alog i).toNat = Reference.power m poly i) ∧
    Table.entry alog 0 = 1 ∧
    (2 ≤ m → Table.entry alog 1 = 2) ∧
    (∀ i, i < 2 ^ m - 1 →
      1 ≤ (Table.entry alog i).toNat ∧ (Table.entry alog i).toNat ≤ 2 ^ m - 1 ∧
      Table.entry log (Table.entry alog i).toNat = BitVec.ofNat 8 i) ∧
    (∀ i j, i < 2 ^ m - 1 → j < 2 ^ m - 1 → Table.entry alog i = Table.entry alog j → i = j) ∧
    (∀ x, 1 ≤ x → x ≤ 2 ^ m - 1 →
      Table.entry alog (Table.entry log x).toNat = BitVec.ofNat 8 x) ∧
    Table.entry log 0 = BitVec.ofNat 8 (2 ^ m - 1) ∧ Table.entry alog (2 ^ m - 1) = 0 ∧
    (∀ x, x ≤ 2 ^ m - 1 → (Table.entry log x).toNat ≤ 2 ^ m - 1 ∧
      ((Table.entry log x).toNat = 2 ^ m - 1 ↔ x = 0))

/-- The field multiplication of rule R44 by log tables is polynomial multiplication modulo p(x), for all
elements. -/
def Obligations.TableMultiplicationIsFieldMultiplication : Prop :=
  ∀ (m poly : Nat) (log alog : Table), 1 ≤ m → m ≤ 8 → buildField m poly = some (log, alog) →
    ∀ a b : Byte, a.toNat ≤ 2 ^ m - 1 → b.toNat ≤ 2 ^ m - 1 →
      (gfmul (2 ^ m - 1) log alog a b).toNat = Reference.product m poly a.toNat b.toNat

/-- Rule R45: LogMul is A[ModReduce(la + e)]; it is the product when la < nn and alpha^e = b, and alpha^e,
not 0, when la is the sentinel. The spec marks the product clause of R45 as its own inference ('[derived:
...]'). -/
def Obligations.LogDomainProductIsTheProductBelowTheSentinel : Prop :=
  ∀ (m poly : Nat) (log alog : Table), 1 ≤ m → m ≤ 8 → buildField m poly = some (log, alog) →
    (∀ la e, logMul (2 ^ m - 1) alog la e = Table.entry alog ((la + e) % (2 ^ m - 1))) ∧
    (∀ la e, la < 2 ^ m - 1 →
      logMul (2 ^ m - 1) alog la e = gfmul (2 ^ m - 1) log alog (Table.entry alog la)
        (BitVec.ofNat 8 (Reference.power m poly e))) ∧
    (∀ e, (logMul (2 ^ m - 1) alog (2 ^ m - 1) e).toNat = Reference.power m poly e)

/-- The fold with a subtraction first computes ModReduce (rule R41). The spec marks that fold '[from general
knowledge, not in source]'. -/
def Obligations.TheSubtractingFoldComputesModReduce : Prop :=
  ∀ m x : Nat, 1 ≤ m → Reference.foldReduce m x x = modReduce (2 ^ m - 1) x

/-- BuildGenerator's in-place passes compute the product of the factors (x + alpha^(e_i)), e_i = prim * (fcr
+ i) (rules R50, R51 and R53). The spec marks the factor form of R51 as its own inference ('[derived:
...]'). -/
def Obligations.TheGeneratorIsTheProductOfItsRootFactors : Prop :=
  ∀ (m poly : Nat) (log alog : Table), 1 ≤ m → m ≤ 8 → buildField m poly = some (log, alog) →
    ∀ fcr prim nroots : Nat,
      buildGenerator (2 ^ m - 1) log alog fcr prim nroots =
        (List.range nroots).foldl
          (fun c i => Reference.timesRoot (2 ^ m - 1) log alog c
            (Table.entry alog ((prim * (fcr + i)) % (2 ^ m - 1)))) [1]

/-- Keeping the root exponent reduced modulo nn gives the same generator (rule R54). The spec marks R54 as
its own inference ('[derived: ...]'). For nn = 0, outside R41's range, the modulus is the model's (log entry
10). -/
def Obligations.ReducedRootExponentsGiveTheSameGenerator : Prop :=
  ∀ (nn : Nat) (log alog : Table) (fcr prim nroots : Nat),
    buildGenerator nn log alog fcr prim nroots =
      (List.range nroots).foldl
        (fun c i => generatorPass nn log alog i (Reference.reducedRoot nn fcr prim i) c)
        (1 :: List.replicate nroots 0)

/-- GENPOLY after INIT (rules R55 and R56): the leading coefficient is 1, G[0] is the sum of the root
exponents modulo nn, every entry is at most nn, and the entries beyond nroots are 0. The spec marks R56 as
its own inference ('[derived: ...]'). What an index above 255 reads as is the model's choice (log entry 10).
-/
def Obligations.GeneratorEntriesOfAValidConfiguration : Prop :=
  ∀ s : State, s.Inv → s.status.valid = true →
    Table.entry s.genpoly s.cfg.nroots.toNat = 0 ∧
    (Table.entry s.genpoly 0).toNat =
      ((List.range s.cfg.nroots.toNat).map
        (fun i => s.cfg.prim.toNat * (s.cfg.fcr.toNat + i))).sum % s.cfg.nn.toNat ∧
    (∀ j, (Table.entry s.genpoly j).toNat ≤ s.cfg.nn.toNat) ∧
    (∀ j, s.cfg.nroots.toNat < j → Table.entry s.genpoly j = 0)

/-- Every alpha^(e_i) is a root of the active generator polynomial (rules R50 and R51). The spec marks R51
as its own inference ('[derived: ...]'). -/
def Obligations.TheGeneratorVanishesAtItsRoots : Prop :=
  ∀ s : State, s.Inv → s.status.valid = true → ∀ i, i < s.cfg.nroots.toNat →
    Reference.evalHighFirst s.cfg.nn.toNat s.log s.alog (Reference.generatorOf s).reverse
      (Reference.rootOf s i) = 0

/-! ## ENCODE -/

/-- The checks of rule R62, in their order: not initialised, then the first DATA entry below k that is
unwritten or above nn. The faults are the ones R62 prescribes (log entry 8). -/
def Obligations.EncodeFaultsOnTheFirstViolatedPrecondition : Prop :=
  (∀ s : State, s.status.valid = false → exec .encode s = .fault .encodeNotInitialized) ∧
  (∀ (s : State) (i : Nat), s.status.valid = true → s.cfg.nroots ≠ 0 → i < s.cfg.k.toNat →
    (∀ j, j < i → ∃ d, Memory.read s.data j = some d ∧ d.toNat ≤ s.cfg.nn.toNat) →
    (Memory.read s.data i = none → exec .encode s = .fault (.encodeDataUnwritten i)) ∧
    (∀ d, Memory.read s.data i = some d → s.cfg.nn.toNat < d.toNat →
      exec .encode s = .fault (.encodeSymbolRange i)))

/-- Rule R63: with nroots = 0 ENCODE reads no DATA, writes no PARITY and sets ERR to 0. -/
def Obligations.EncodeWithoutRootsOnlyClearsErr : Prop :=
  ∀ s : State, s.status.valid = true → s.cfg.nroots = 0 → exec .encode s = .next (Reference.withErr s 0)

/-- ENCODE completes when its preconditions hold; PARITY[0 .. nroots-1] is the shift register of rule R65
after the k data symbols, the other entries keep their values, and of the rest only ERR changes, to 0 (rules
R64 to R66). The spec marks R65 as its own inference ('[derived: from rule R64]'). For cfg.nn = 0,
which no reached state with VALID = 1 has, the modulus and an index outside a table are the model's choice
(log entry 10). -/
def Obligations.EncodeWritesTheShiftRegister : Prop :=
  ∀ (s : State) (ds : List Byte), s.status.valid = true → s.cfg.nroots ≠ 0 → ds.length = s.cfg.k.toNat →
    (∀ i (h : i < ds.length), Memory.read s.data i = some ds[i] ∧ ds[i].toNat ≤ s.cfg.nn.toNat) →
    ∃ t, exec .encode s = .next t ∧
      t = { s with parity := t.parity, status := { s.status with err := 0 } } ∧
      (∀ j, j < s.cfg.nroots.toNat → Memory.read t.parity j =
        (Reference.register s.cfg.nn.toNat s.cfg.nroots.toNat s.log s.alog s.genpoly ds)[j]?) ∧
      (∀ j, s.cfg.nroots.toNat ≤ j → Memory.read t.parity j = Memory.read s.parity j)

/-- Rule R60: two states that agree on VALID, nn, nroots, k, the tables and DATA[0 .. k-1] encode alike,
whatever P.*, the rest of the configuration, the other DATA entries and the old PARITY are; and ENCODE
writes PARITY[0 .. nroots-1] and ERR only. -/
def Obligations.EncodeDependsOnlyOnWhatItReads : Prop :=
  ∀ s₁ s₂ t₁ : State, s₁.status.valid = s₂.status.valid → s₁.cfg.nn = s₂.cfg.nn →
    s₁.cfg.nroots = s₂.cfg.nroots → s₁.cfg.k = s₂.cfg.k → s₁.log = s₂.log → s₁.alog = s₂.alog →
    s₁.genpoly = s₂.genpoly →
    (∀ i, i < s₁.cfg.k.toNat → Memory.read s₁.data i = Memory.read s₂.data i) →
    exec .encode s₁ = .next t₁ →
    (∃ t₂, exec .encode s₂ = .next t₂ ∧
      ∀ j, j < s₁.cfg.nroots.toNat → Memory.read t₁.parity j = Memory.read t₂.parity j) ∧
    t₁ = { s₁ with parity := t₁.parity, status := { s₁.status with err := 0 } } ∧
    (∀ j, s₁.cfg.nroots.toNat ≤ j → Memory.read t₁.parity j = Memory.read s₁.parity j)

/-- Whatever ENCODE does, it stays within the bounds rule R62 sets for a violated precondition too: a
completed one changes at most PARITY[0 .. nroots-1] and STATUS.ERR, and a faulted one records its reason
only. That the faulted state keeps PARITY and STATUS.ERR is the model's choice of form (log entry 4); that a
violated precondition faults is log entry 8. -/
def Obligations.EncodeStaysWithinItsConfinement : Prop :=
  (∀ s t : State, exec .encode s = .next t → EncodeConfined s t) ∧
  (∀ (s : State) (r : Fault), exec .encode s = .fault r →
    s.after (exec .encode s) = { s with fault := some r } ∧
    EncodeConfined s { s.after (exec .encode s) with fault := s.fault })

/-- Rule R69: q leading zero symbols in front of the data do not change the parity. The spec marks R69 as
its own inference ('[derived: from rule R64]'). -/
def Obligations.LeadingZeroSymbolsDoNotChangeTheParity : Prop :=
  ∀ (s₁ s₂ t₁ : State) (q : Nat), s₁.Inv → s₂.status.valid = true → s₁.cfg.nn = s₂.cfg.nn →
    s₁.cfg.nroots = s₂.cfg.nroots → s₁.log = s₂.log → s₁.alog = s₂.alog → s₁.genpoly = s₂.genpoly →
    s₂.cfg.k.toNat = q + s₁.cfg.k.toNat →
    (∀ i, i < q → Memory.read s₂.data i = some 0) →
    (∀ i, i < s₁.cfg.k.toNat → Memory.read s₂.data (q + i) = Memory.read s₁.data i) →
    exec .encode s₁ = .next t₁ →
    ∃ t₂, exec .encode s₂ = .next t₂ ∧
      ∀ j, j < s₁.cfg.nroots.toNat → Memory.read t₂.parity j = Memory.read t₁.parity j

/-- The remainder half of rule R68: with no zero interior generator coefficient, the codeword data ++ parity
is a multiple of the generator polynomial, so the parity is the remainder of M(x) * x^n. The spec marks R67
and R68 as its own inference ('[derived: ...]'). -/
def Obligations.TheCodewordIsAMultipleOfTheGenerator : Prop :=
  ∀ s t : State, s.Inv → s.cfg.nroots ≠ 0 →
    (∀ j, 1 ≤ j → j < s.cfg.nroots.toNat → (Table.entry s.genpoly j).toNat < s.cfg.nn.toNat) →
    exec .encode s = .next t →
    ∃ q : List Byte, q.length = s.cfg.k.toNat ∧ (∀ a ∈ q, a.toNat ≤ s.cfg.nn.toNat) ∧
      Reference.polyMul s.cfg.nn.toNat s.log s.alog q (Reference.generatorOf s) =
        (Reference.codeword s t).reverse

/-- The root half of rule R68: under the same condition the codeword vanishes at every alpha^(e_i). The spec
marks R67 and R68 as its own inference ('[derived: ...]'). -/
def Obligations.TheCodewordVanishesAtTheRoots : Prop :=
  ∀ s t : State, s.Inv → s.cfg.nroots ≠ 0 →
    (∀ j, 1 ≤ j → j < s.cfg.nroots.toNat → (Table.entry s.genpoly j).toNat < s.cfg.nn.toNat) →
    exec .encode s = .next t →
    ∀ i, i < s.cfg.nroots.toNat →
      Reference.evalHighFirst s.cfg.nn.toNat s.log s.alog (Reference.codeword s t)
        (Reference.rootOf s i) = 0

/-! ## The whole machine -/

/-- The invariant holds at reset. The RAMs' canonical form is the model's (log entry 17); that the tables
hold 0 is log entry 7. -/
def Obligations.TheInvariantHoldsAtReset : Prop := State.reset.Inv

/-- Every step keeps the invariant: canonical RAMs, a produced error code, and a configuration that is the
reset one or exactly what INIT computes from its own mirrors. The RAMs' canonical form, the queue a step
takes its request from and the idle step are the model's choices (log entries 17, 1 and 3). -/
def Obligations.EveryStepKeepsTheInvariant : Prop :=
  ∀ s t : State, s.Inv → step s = .next t → t.Inv

/-- The invariant holds along every run that records no fault, from every state that meets it, and such a
run leaves no fault recorded (rules R26 and R95). The canonical form in the invariant, the queue and the
idle step are the model's choices (log entries 17, 1 and 3), and so is the form of a recorded fault (log
entry 4). -/
def Obligations.FaultFreeRunsKeepTheInvariant : Prop :=
  ∀ (n : Nat) (s t : State), s.Inv → FaultFreeRun n s t → t.Inv ∧ (0 < n → s.FaultFree ∧ t.FaultFree)

/-- What a valid configuration holds (rules R18, R74 to R78 and R81). -/
def Obligations.AValidConfigurationIsInRange : Prop :=
  ∀ s : State, s.Inv → s.status.valid = true →
    1 ≤ s.cfg.m.toNat ∧ s.cfg.m.toNat ≤ 8 ∧ s.cfg.nn.toNat = 2 ^ s.cfg.m.toNat - 1 ∧
    s.cfg.fcr.toNat ≤ s.cfg.nn.toNat ∧ 1 ≤ s.cfg.prim.toNat ∧ s.cfg.prim.toNat ≤ s.cfg.nn.toNat ∧
    s.cfg.nroots.toNat + 1 ≤ s.cfg.nn.toNat ∧ 1 ≤ s.cfg.k.toNat ∧
    s.cfg.k.toNat + s.cfg.nroots.toNat + s.cfg.pad.toNat = s.cfg.nn.toNat ∧
    Reference.Primitive s.cfg.m.toNat s.cfg.poly.toNat

/-- Rule R93: set_err writes STATUS.ERR only; INIT leaves 0, 1 or 2, a completed ENCODE 0, a reserved code
3; NOP, reads and other writes leave ERR as it was. -/
def Obligations.ErrIsWrittenOnlyByCommands : Prop :=
  (∀ (s : State) (c : ErrCode), s.setErr c = Reference.withErr s c.code) ∧
  ∀ (i : Instr) (s t : State), i.wf = true → exec i s = .next t →
    match i with
    | .init => t.status.err = 0 ∨ t.status.err = 1 ∨ t.status.err = 2
    | .encode => t.status.err = 0
    | .rsvdCmd3 | .rsvdCmd4to7 _ | .rsvdCmd8to15 _ => t.status.err = 3
    | .nop | .wr _ _ | .rd _ => t.status.err = s.status.err

/-- The configuration, its tables, VALID and IPRIM_VALID change only by an INIT that succeeds, and VALID
never goes from 1 to 0 (rules R18, R19, R21 to R23). -/
def Obligations.OnlyASuccessfulInitChangesTheConfiguration : Prop :=
  ∀ (i : Instr) (s t : State), i.wf = true → exec i s = .next t →
    (t.cfg = s.cfg ∧ t.log = s.log ∧ t.alog = s.alog ∧ t.genpoly = s.genpoly ∧
      t.status.valid = s.status.valid ∧ t.status.iprimValid = s.status.iprimValid) ∨
    (i = .init ∧ t.status.err = 0 ∧ t.status.valid = true)

/-- The parameter registers change only by a write to one of them, DATA only by a write to a DATA entry,
PARITY only by ENCODE or a write to a PARITY entry; no access touches the fault field or the queue (rules
R12 to R17, R24 and R25; the queue and the read's answer `response`, which only RD writes, are the model's,
log entries 1 and 2). -/
def Obligations.EachRegisterAndBufferHasItsOwnWriters : Prop :=
  ∀ (i : Instr) (s t : State), i.wf = true → exec i s = .next t →
    (t.params = s.params ∨ ∃ a v, i = .wr a v ∧ 0x004 ≤ a.toNat ∧ a.toNat ≤ 0x009) ∧
    (t.data = s.data ∨ ∃ a v, i = .wr a v ∧ 0x400 ≤ a.toNat ∧ a.toNat ≤ 0x4FF) ∧
    (t.parity = s.parity ∨ i = .encode ∨ ∃ a v, i = .wr a v ∧ 0x500 ≤ a.toNat ∧ a.toNat ≤ 0x5FF) ∧
    (t.response = s.response ∨ ∃ a, i = .rd a) ∧
    t.fault = s.fault ∧ t.pending = s.pending

/-- No instruction is refused, and the only faults are those of rule R95, each under its condition: ENCODE
with VALID = 0; ENCODE with VALID = 1, nroots >= 1 and a DATA entry below k that is none or above nn; and
the read of a DATA or PARITY entry that is none. That an unwritten entry is none, and that a violated
precondition of ENCODE faults, are log entries 6 and 8. -/
def Obligations.OnlyEncodeAndReadsFault : Prop :=
  (∀ (i : Instr) (s : State) (r : Refusal), exec i s ≠ .refused r) ∧
  ∀ (i : Instr) (s : State) (r : Fault), i.wf = true → exec i s = .fault r →
    (i = .encode ∧ s.status.valid = false ∧ r = .encodeNotInitialized) ∨
    (i = .encode ∧ s.status.valid = true ∧ s.cfg.nroots ≠ 0 ∧
      ∃ j, j < s.cfg.k.toNat ∧
        ((Memory.read s.data j = none ∧ r = .encodeDataUnwritten j) ∨
          ∃ d, Memory.read s.data j = some d ∧ s.cfg.nn.toNat < d.toNat ∧ r = .encodeSymbolRange j)) ∨
    (∃ a, i = .rd a ∧ r = .readUnwritten a ∧
      ((0x400 ≤ a.toNat ∧ a.toNat ≤ 0x4FF ∧ Memory.read s.data (a.toNat - 0x400) = none) ∨
        (0x500 ≤ a.toNat ∧ a.toNat ≤ 0x5FF ∧ Memory.read s.parity (a.toNat - 0x500) = none)))

end
end

