-- ==== Sys2Proof/Laws/State.lean ====
section
/-! SUPPORT. One lemma for each field after each named update of the state. -/

namespace Sys2Proof.Machine

variable (s : State)

@[simp] theorem State.setErr_params (c : ErrCode) : (s.setErr c).params = s.params := rfl
@[simp] theorem State.setErr_cfg (c : ErrCode) : (s.setErr c).cfg = s.cfg := rfl
@[simp] theorem State.setErr_status (c : ErrCode) : (s.setErr c).status = s.status.withErr c := rfl
@[simp] theorem State.setErr_log (c : ErrCode) : (s.setErr c).log = s.log := rfl
@[simp] theorem State.setErr_alog (c : ErrCode) : (s.setErr c).alog = s.alog := rfl
@[simp] theorem State.setErr_genpoly (c : ErrCode) : (s.setErr c).genpoly = s.genpoly := rfl
@[simp] theorem State.setErr_data (c : ErrCode) : (s.setErr c).data = s.data := rfl
@[simp] theorem State.setErr_parity (c : ErrCode) : (s.setErr c).parity = s.parity := rfl
@[simp] theorem State.setErr_fault (c : ErrCode) : (s.setErr c).fault = s.fault := rfl
@[simp] theorem State.setErr_pending (c : ErrCode) : (s.setErr c).pending = s.pending := rfl
@[simp] theorem State.setErr_response (c : ErrCode) : (s.setErr c).response = s.response := rfl

@[simp] theorem State.recordFault_params (r : Fault) : (s.recordFault r).params = s.params := rfl
@[simp] theorem State.recordFault_cfg (r : Fault) : (s.recordFault r).cfg = s.cfg := rfl
@[simp] theorem State.recordFault_status (r : Fault) : (s.recordFault r).status = s.status := rfl
@[simp] theorem State.recordFault_log (r : Fault) : (s.recordFault r).log = s.log := rfl
@[simp] theorem State.recordFault_alog (r : Fault) : (s.recordFault r).alog = s.alog := rfl
@[simp] theorem State.recordFault_genpoly (r : Fault) : (s.recordFault r).genpoly = s.genpoly := rfl
@[simp] theorem State.recordFault_data (r : Fault) : (s.recordFault r).data = s.data := rfl
@[simp] theorem State.recordFault_parity (r : Fault) : (s.recordFault r).parity = s.parity := rfl
@[simp] theorem State.recordFault_fault (r : Fault) : (s.recordFault r).fault = some r := rfl
@[simp] theorem State.recordFault_pending (r : Fault) : (s.recordFault r).pending = s.pending := rfl
@[simp] theorem State.recordFault_response (r : Fault) : (s.recordFault r).response = s.response := rfl

@[simp] theorem State.writeParam_params (r : ParamReg) (v : Half) : (s.writeParam r v).params = s.params.withField r v := rfl
@[simp] theorem State.writeParam_cfg (r : ParamReg) (v : Half) : (s.writeParam r v).cfg = s.cfg := rfl
@[simp] theorem State.writeParam_status (r : ParamReg) (v : Half) : (s.writeParam r v).status = s.status := rfl
@[simp] theorem State.writeParam_log (r : ParamReg) (v : Half) : (s.writeParam r v).log = s.log := rfl
@[simp] theorem State.writeParam_alog (r : ParamReg) (v : Half) : (s.writeParam r v).alog = s.alog := rfl
@[simp] theorem State.writeParam_genpoly (r : ParamReg) (v : Half) : (s.writeParam r v).genpoly = s.genpoly := rfl
@[simp] theorem State.writeParam_data (r : ParamReg) (v : Half) : (s.writeParam r v).data = s.data := rfl
@[simp] theorem State.writeParam_parity (r : ParamReg) (v : Half) : (s.writeParam r v).parity = s.parity := rfl
@[simp] theorem State.writeParam_fault (r : ParamReg) (v : Half) : (s.writeParam r v).fault = s.fault := rfl
@[simp] theorem State.writeParam_pending (r : ParamReg) (v : Half) : (s.writeParam r v).pending = s.pending := rfl
@[simp] theorem State.writeParam_response (r : ParamReg) (v : Half) : (s.writeParam r v).response = s.response := rfl

@[simp] theorem State.writeData_params (i v : Byte) : (s.writeData i v).params = s.params := rfl
@[simp] theorem State.writeData_cfg (i v : Byte) : (s.writeData i v).cfg = s.cfg := rfl
@[simp] theorem State.writeData_status (i v : Byte) : (s.writeData i v).status = s.status := rfl
@[simp] theorem State.writeData_log (i v : Byte) : (s.writeData i v).log = s.log := rfl
@[simp] theorem State.writeData_alog (i v : Byte) : (s.writeData i v).alog = s.alog := rfl
@[simp] theorem State.writeData_genpoly (i v : Byte) : (s.writeData i v).genpoly = s.genpoly := rfl
@[simp] theorem State.writeData_data (i v : Byte) : (s.writeData i v).data = Memory.write s.data i.toNat v := rfl
@[simp] theorem State.writeData_parity (i v : Byte) : (s.writeData i v).parity = s.parity := rfl
@[simp] theorem State.writeData_fault (i v : Byte) : (s.writeData i v).fault = s.fault := rfl
@[simp] theorem State.writeData_pending (i v : Byte) : (s.writeData i v).pending = s.pending := rfl
@[simp] theorem State.writeData_response (i v : Byte) : (s.writeData i v).response = s.response := rfl

@[simp] theorem State.writeParity_params (j v : Byte) : (s.writeParity j v).params = s.params := rfl
@[simp] theorem State.writeParity_cfg (j v : Byte) : (s.writeParity j v).cfg = s.cfg := rfl
@[simp] theorem State.writeParity_status (j v : Byte) : (s.writeParity j v).status = s.status := rfl
@[simp] theorem State.writeParity_log (j v : Byte) : (s.writeParity j v).log = s.log := rfl
@[simp] theorem State.writeParity_alog (j v : Byte) : (s.writeParity j v).alog = s.alog := rfl
@[simp] theorem State.writeParity_genpoly (j v : Byte) : (s.writeParity j v).genpoly = s.genpoly := rfl
@[simp] theorem State.writeParity_data (j v : Byte) : (s.writeParity j v).data = s.data := rfl
@[simp] theorem State.writeParity_parity (j v : Byte) : (s.writeParity j v).parity = Memory.write s.parity j.toNat v := rfl
@[simp] theorem State.writeParity_fault (j v : Byte) : (s.writeParity j v).fault = s.fault := rfl
@[simp] theorem State.writeParity_pending (j v : Byte) : (s.writeParity j v).pending = s.pending := rfl
@[simp] theorem State.writeParity_response (j v : Byte) : (s.writeParity j v).response = s.response := rfl

@[simp] theorem State.writeParityAll_params (p : List Byte) : (s.writeParityAll p).params = s.params := rfl
@[simp] theorem State.writeParityAll_cfg (p : List Byte) : (s.writeParityAll p).cfg = s.cfg := rfl
@[simp] theorem State.writeParityAll_status (p : List Byte) : (s.writeParityAll p).status = s.status := rfl
@[simp] theorem State.writeParityAll_log (p : List Byte) : (s.writeParityAll p).log = s.log := rfl
@[simp] theorem State.writeParityAll_alog (p : List Byte) : (s.writeParityAll p).alog = s.alog := rfl
@[simp] theorem State.writeParityAll_genpoly (p : List Byte) : (s.writeParityAll p).genpoly = s.genpoly := rfl
@[simp] theorem State.writeParityAll_data (p : List Byte) : (s.writeParityAll p).data = s.data := rfl
@[simp] theorem State.writeParityAll_parity (p : List Byte) : (s.writeParityAll p).parity = Memory.writeList s.parity 0 p := rfl
@[simp] theorem State.writeParityAll_fault (p : List Byte) : (s.writeParityAll p).fault = s.fault := rfl
@[simp] theorem State.writeParityAll_pending (p : List Byte) : (s.writeParityAll p).pending = s.pending := rfl
@[simp] theorem State.writeParityAll_response (p : List Byte) : (s.writeParityAll p).response = s.response := rfl

@[simp] theorem State.respond_params (v : Word) : (s.respond v).params = s.params := rfl
@[simp] theorem State.respond_cfg (v : Word) : (s.respond v).cfg = s.cfg := rfl
@[simp] theorem State.respond_status (v : Word) : (s.respond v).status = s.status := rfl
@[simp] theorem State.respond_log (v : Word) : (s.respond v).log = s.log := rfl
@[simp] theorem State.respond_alog (v : Word) : (s.respond v).alog = s.alog := rfl
@[simp] theorem State.respond_genpoly (v : Word) : (s.respond v).genpoly = s.genpoly := rfl
@[simp] theorem State.respond_data (v : Word) : (s.respond v).data = s.data := rfl
@[simp] theorem State.respond_parity (v : Word) : (s.respond v).parity = s.parity := rfl
@[simp] theorem State.respond_fault (v : Word) : (s.respond v).fault = s.fault := rfl
@[simp] theorem State.respond_pending (v : Word) : (s.respond v).pending = s.pending := rfl
@[simp] theorem State.respond_response (v : Word) : (s.respond v).response = some v := rfl

@[simp] theorem State.take_params (rest : List BusRequest) : (s.take rest).params = s.params := rfl
@[simp] theorem State.take_cfg (rest : List BusRequest) : (s.take rest).cfg = s.cfg := rfl
@[simp] theorem State.take_status (rest : List BusRequest) : (s.take rest).status = s.status := rfl
@[simp] theorem State.take_log (rest : List BusRequest) : (s.take rest).log = s.log := rfl
@[simp] theorem State.take_alog (rest : List BusRequest) : (s.take rest).alog = s.alog := rfl
@[simp] theorem State.take_genpoly (rest : List BusRequest) : (s.take rest).genpoly = s.genpoly := rfl
@[simp] theorem State.take_data (rest : List BusRequest) : (s.take rest).data = s.data := rfl
@[simp] theorem State.take_parity (rest : List BusRequest) : (s.take rest).parity = s.parity := rfl
@[simp] theorem State.take_fault (rest : List BusRequest) : (s.take rest).fault = s.fault := rfl
@[simp] theorem State.take_pending (rest : List BusRequest) : (s.take rest).pending = rest := rfl
@[simp] theorem State.take_response (rest : List BusRequest) : (s.take rest).response = none := rfl

@[simp] theorem State.issue_params (q : BusRequest) : (s.issue q).params = s.params := rfl
@[simp] theorem State.issue_cfg (q : BusRequest) : (s.issue q).cfg = s.cfg := rfl
@[simp] theorem State.issue_status (q : BusRequest) : (s.issue q).status = s.status := rfl
@[simp] theorem State.issue_log (q : BusRequest) : (s.issue q).log = s.log := rfl
@[simp] theorem State.issue_alog (q : BusRequest) : (s.issue q).alog = s.alog := rfl
@[simp] theorem State.issue_genpoly (q : BusRequest) : (s.issue q).genpoly = s.genpoly := rfl
@[simp] theorem State.issue_data (q : BusRequest) : (s.issue q).data = s.data := rfl
@[simp] theorem State.issue_parity (q : BusRequest) : (s.issue q).parity = s.parity := rfl
@[simp] theorem State.issue_fault (q : BusRequest) : (s.issue q).fault = s.fault := rfl
@[simp] theorem State.issue_pending (q : BusRequest) : (s.issue q).pending = q :: s.pending := rfl
@[simp] theorem State.issue_response (q : BusRequest) : (s.issue q).response = s.response := rfl

@[simp] theorem State.commit_params (c : Configuration) : (s.commit c).params = s.params := rfl
@[simp] theorem State.commit_cfg (c : Configuration) : (s.commit c).cfg = c.cfg := rfl
@[simp] theorem State.commit_status (c : Configuration) : (s.commit c).status = ⟨true, c.iprimValid, ErrCode.none.code⟩ := rfl
@[simp] theorem State.commit_log (c : Configuration) : (s.commit c).log = c.log := rfl
@[simp] theorem State.commit_alog (c : Configuration) : (s.commit c).alog = c.alog := rfl
@[simp] theorem State.commit_genpoly (c : Configuration) : (s.commit c).genpoly = c.genpoly := rfl
@[simp] theorem State.commit_data (c : Configuration) : (s.commit c).data = s.data := rfl
@[simp] theorem State.commit_parity (c : Configuration) : (s.commit c).parity = s.parity := rfl
@[simp] theorem State.commit_fault (c : Configuration) : (s.commit c).fault = s.fault := rfl
@[simp] theorem State.commit_pending (c : Configuration) : (s.commit c).pending = s.pending := rfl
@[simp] theorem State.commit_response (c : Configuration) : (s.commit c).response = s.response := rfl

@[simp] theorem Status.withErr_valid (st : Status) (c : ErrCode) : (st.withErr c).valid = st.valid := rfl
@[simp] theorem Status.withErr_iprimValid (st : Status) (c : ErrCode) :
    (st.withErr c).iprimValid = st.iprimValid := rfl
@[simp] theorem Status.withErr_err (st : Status) (c : ErrCode) : (st.withErr c).err = c.code := rfl

/-- The code of every error is one that rule R91 lists. -/
theorem ErrCode.code_le (c : ErrCode) : c.code.toNat ≤ 3 := by cases c <;> decide

/-- Reading a parameter register after one of them is written. -/
theorem Params.field_withField (p : Params) (r r' : ParamReg) (v : Half) :
    (p.withField r v).field r' = if r' = r then v else p.field r' := by
  cases r <;> cases r' <;> rfl

@[simp] theorem State.after_next (t : State) : s.after (.next t) = t := rfl
@[simp] theorem State.after_fault (r : Fault) : s.after (.fault r) = s.recordFault r := rfl
@[simp] theorem State.after_refused (r : Refusal) : s.after (.refused r) = s := rfl

/-- An error code leaves the configuration alone. -/
@[simp] theorem State.setErr_configuration (c : ErrCode) : (s.setErr c).configuration = s.configuration := rfl

/-- A commit makes the committed configuration the active one. -/
@[simp] theorem State.commit_configuration (c : Configuration) : (s.commit c).configuration = c := rfl

end Sys2Proof.Machine
end

