-- ==== Sys2Proof/Laws/Memory.lean ====
section
/-! SUPPORT. The laws of the RAMs: read after write, and that every operation keeps the canonical form. -/

namespace Sys2Proof.Machine

/-! ## Cells -/

theorem findCell_insertCell (m : List Host.Cell) (a b : Nat) (v : Byte) :
    findCell (insertCell m a v) b = if b = a then some v else findCell m b := by
  induction m with
  | nil => simp [insertCell, findCell]
  | cons c m ih =>
    obtain ⟨i, w⟩ := c
    simp only [insertCell]
    split
    · simp [findCell]
    · split
      · subst_vars
        simp only [findCell]
        split <;> rfl
      · simp only [findCell, ih]
        split
        · have : b ≠ a := by omega
          simp [this]
        · rfl

theorem findCell_removeCell (m : List Host.Cell) (a b : Nat) :
    findCell (removeCell m a) b = if b = a then none else findCell m b := by
  induction m with
  | nil => simp [removeCell, findCell]
  | cons c m ih =>
    obtain ⟨i, w⟩ := c
    simp only [removeCell] at ih ⊢
    by_cases h : i = a
    · subst h
      simp only [List.filter_cons, bne_self_eq_false, Bool.false_eq_true, if_false, ih, findCell]
      split <;> rfl
    · have hb : (i != a) = true := by simp [h]
      simp only [List.filter_cons, hb, if_true, findCell, ih]
      by_cases hbi : b = i
      · simp [hbi, h]
      · simp [hbi]

/-- An inserted cell is among the old cells or is the new one. -/
theorem mem_insertCell (m : List Host.Cell) (a : Nat) (v : Byte) (c : Host.Cell)
    (h : c ∈ insertCell m a v) : c = (a, v) ∨ c ∈ m := by
  induction m with
  | nil => exact .inl (by simpa [insertCell] using h)
  | cons d m ih =>
    simp only [insertCell] at h
    split at h
    · rcases List.mem_cons.mp h with h | h
      · exact .inl h
      · exact .inr h
    · split at h
      · rcases List.mem_cons.mp h with h | h
        · exact .inl h
        · exact .inr (List.mem_cons_of_mem _ h)
      · rcases List.mem_cons.mp h with h | h
        · exact .inr (h ▸ List.mem_cons_self)
        · exact (ih h).imp id (List.mem_cons_of_mem _)

theorem pairwise_insertCell (m : List Host.Cell) (a : Nat) (v : Byte)
    (h : m.Pairwise (fun x y => x.1 < y.1)) : (insertCell m a v).Pairwise (fun x y => x.1 < y.1) := by
  induction m with
  | nil => simp [insertCell]
  | cons d m ih =>
    obtain ⟨i, w⟩ := d
    obtain ⟨hd, ht⟩ := List.pairwise_cons.mp h
    simp only [insertCell]
    split
    · rename_i hlt
      refine List.pairwise_cons.mpr ⟨fun c hc => ?_, h⟩
      rcases List.mem_cons.mp hc with rfl | hc
      · exact hlt
      · exact Nat.lt_trans hlt (hd c hc)
    · split
      · rename_i heq
        subst heq
        exact List.pairwise_cons.mpr ⟨hd, ht⟩
      · refine List.pairwise_cons.mpr ⟨fun c hc => ?_, ih ht⟩
        rcases mem_insertCell m a v c hc with rfl | hc
        · show i < a
          omega
        · exact hd c hc

theorem risingCells_iff (m : List Host.Cell) :
    risingCells m = true ↔ m.Pairwise (fun x y => x.1 < y.1) ∧ ∀ c ∈ m, c.1 < 256 := by
  simp [risingCells]

theorem risingCells_insertCell (m : List Host.Cell) (a : Nat) (v : Byte) (ha : a < 256)
    (h : risingCells m = true) : risingCells (insertCell m a v) = true := by
  rw [risingCells_iff] at h ⊢
  refine ⟨pairwise_insertCell m a v h.1, fun c hc => ?_⟩
  rcases mem_insertCell m a v c hc with rfl | hc
  · exact ha
  · exact h.2 c hc

theorem risingCells_removeCell (m : List Host.Cell) (a : Nat) (h : risingCells m = true) :
    risingCells (removeCell m a) = true := by
  rw [risingCells_iff] at h ⊢
  exact ⟨h.1.filter _, fun c hc => h.2 c (List.mem_filter.mp hc).1⟩

/-! ## Buffers -/

@[simp] theorem Memory.read_eq_findCell (m : Memory) (a : Nat) : Memory.read m a = findCell m a := by
  simp only [Memory.read, Memory.unlisted]
  split <;> simp_all

/-- Reading an entry after one is written. -/
theorem Memory.read_write (m : Memory) (a b : Nat) (v : Byte) :
    Memory.read (Memory.write m a v) b = if b = a then some v else Memory.read m b := by
  simp only [Memory.read_eq_findCell, Memory.write, findCell_insertCell]

/-- Reading an entry after consecutive entries are written. -/
theorem Memory.read_writeList (vs : List Byte) (m : Memory) (base b : Nat) :
    Memory.read (Memory.writeList m base vs) b =
      if base ≤ b ∧ b < base + vs.length then vs[b - base]? else Memory.read m b := by
  induction vs generalizing m base with
  | nil =>
    have : ¬(base ≤ b ∧ b < base + ([] : List Byte).length) := by simp
    simp only [Memory.writeList, if_neg this]
  | cons v vs ih =>
    rw [Memory.writeList, ih, Memory.read_write]
    by_cases h1 : b = base
    · subst h1
      simp
    · by_cases h2 : base + 1 ≤ b ∧ b < base + 1 + vs.length
      · have h3 : base ≤ b ∧ b < base + (v :: vs).length := by
          simp only [List.length_cons]
          omega
        rw [if_pos h2, if_pos h3]
        obtain ⟨d, rfl⟩ : ∃ d, b = base + 1 + d := ⟨b - (base + 1), by omega⟩
        have e1 : base + 1 + d - (base + 1) = d := by omega
        have e2 : base + 1 + d - base = d + 1 := by omega
        rw [e1, e2, List.getElem?_cons_succ]
      · have h3 : ¬(base ≤ b ∧ b < base + (v :: vs).length) := by
          simp only [List.length_cons]
          omega
        rw [if_neg h2, if_neg h3, if_neg h1]

theorem Memory.wf_write (m : Memory) (a : Nat) (v : Byte) (ha : a < 256) (h : Memory.wf m = true) :
    Memory.wf (Memory.write m a v) = true := risingCells_insertCell m a v ha h

theorem Memory.wf_writeList (vs : List Byte) (m : Memory) (base : Nat) (hb : base + vs.length ≤ 256)
    (h : Memory.wf m = true) : Memory.wf (Memory.writeList m base vs) = true := by
  induction vs generalizing m base with
  | nil => exact h
  | cons v vs ih =>
    simp only [List.length_cons] at hb
    exact ih _ _ (by omega) (Memory.wf_write _ _ _ (by omega) h)

/-! ## Tables -/

@[simp] theorem Table.entry_zero (i : Nat) : Table.entry Table.zero i = 0 := rfl

/-- Reading an entry after one is written. -/
theorem Table.entry_put (t : Table) (a b : Nat) (v : Byte) :
    Table.entry (Table.put t a v) b = if b = a then v else Table.entry t b := by
  unfold Table.entry Table.put
  split
  · rename_i hv
    rw [findCell_removeCell]
    split <;> simp_all
  · rw [findCell_insertCell]
    split <;> simp

theorem findCell_filterMap_range (f : Nat → Byte) (l : List Nat) (i : Nat) :
    (findCell (l.filterMap (fun i => if f i = Table.unlisted then none else some (i, f i))) i).getD
        Table.unlisted = if i ∈ l then f i else Table.unlisted := by
  induction l with
  | nil => rfl
  | cons a l ih =>
    by_cases ha : f a = Table.unlisted
    · rw [List.filterMap_cons_none (by simp [ha]), ih]
      by_cases hi : i = a
      · subst hi
        simp [ha]
      · simp [hi]
    · rw [List.filterMap_cons_some (b := (a, f a)) (by simp [ha])]
      by_cases hi : i = a
      · subst hi
        simp [findCell]
      · simp only [findCell, hi, if_false, ih, List.mem_cons, false_or]

/-- An entry of a table that is given entry by entry; an index above 255 reads 0. -/
theorem Table.entry_ofEntries (f : Nat → Byte) (i : Nat) :
    Table.entry (Table.ofEntries f) i = if i < 256 then f i else 0 := by
  have h := findCell_filterMap_range f (List.range Config.tableDepth) i
  simp only [List.mem_range, Config.tableDepth] at h
  exact h

theorem mem_removeCell (m : List Host.Cell) (a : Nat) (c : Host.Cell) (h : c ∈ removeCell m a) : c ∈ m :=
  (List.mem_filter.mp h).1

theorem Table.wf_put (t : Table) (a : Nat) (v : Byte) (ha : a < 256) (h : Table.wf t = true) :
    Table.wf (Table.put t a v) = true := by
  simp only [Table.wf, Bool.and_eq_true, List.all_eq_true] at h ⊢
  unfold Table.put
  split
  · exact ⟨risingCells_removeCell t a h.1, fun c hc => h.2 c (mem_removeCell t a c hc)⟩
  · rename_i hv
    refine ⟨risingCells_insertCell t a v ha h.1, fun c hc => ?_⟩
    rcases mem_insertCell t a v c hc with rfl | hc
    · simpa using hv
    · exact h.2 c hc

theorem Table.wf_ofEntries (f : Nat → Byte) : Table.wf (Table.ofEntries f) = true := by
  simp only [Table.wf, Bool.and_eq_true, List.all_eq_true, risingCells_iff]
  refine ⟨⟨?_, fun c hc => ?_⟩, fun c hc => ?_⟩
  · refine List.Pairwise.filterMap (R := fun x y => x < y) _ (fun a a' haa b hb b' hb' => ?_)
      List.pairwise_lt_range
    split at hb <;> split at hb' <;> simp_all
    rw [← hb, ← hb']
    exact haa
  · obtain ⟨i, hi, hc⟩ := List.mem_filterMap.mp hc
    split at hc
    · cases hc
    · cases hc
      simpa [Config.tableDepth] using hi
  · obtain ⟨i, hi, hc⟩ := List.mem_filterMap.mp hc
    split at hc
    · cases hc
    · rename_i hv
      cases hc
      simpa using hv

end Sys2Proof.Machine
end

