-- ==== Sys2Proof/Laws/Codec.lean ====
section
/-! SUPPORT. What the builders and the encoder's functions can answer, said once for each. -/

namespace Sys2Proof.Machine

/-! ## The field builder (rule R46) -/

/-- BuildField succeeds exactly when the loop ends at 1 and has not met 1 before, and then answers the
loop's tables with the sentinel pair. -/
theorem buildField_eq_some_iff (m poly : Nat) (t : Table × Table) :
    buildField m poly = some t ↔
      (fieldLoop m poly).sr = 1 ∧ (fieldLoop m poly).early = false ∧
      t = (Table.put (fieldLoop m poly).log 0 (BitVec.ofNat 8 (blockLength m)),
        Table.put (fieldLoop m poly).alog (blockLength m) 0) := by
  unfold buildField
  split
  · rename_i h
    constructor
    · intro h'
      cases h'
    · rintro ⟨h1, h2, -⟩
      rcases h with h | h
      · exact absurd h1 h
      · rw [h2] at h
        cases h
  · rename_i h
    simp only [not_or, Decidable.not_not, Bool.not_eq_true] at h
    rw [Option.some_inj]
    exact ⟨fun e => ⟨h.1, h.2, e.symm⟩, fun e => e.2.2.symm⟩

/-! ## The generator builder (rule R53) -/

@[simp] theorem length_generatorDown (nn : Nat) (log alog : Table) (root j : Nat) (c : List Byte) :
    (generatorDown nn log alog root j c).length = c.length := by
  induction j generalizing c with
  | zero => rfl
  | succ j ih => rw [generatorDown, ih, List.length_set]

@[simp] theorem length_generatorPass (nn : Nat) (log alog : Table) (i root : Nat) (c : List Byte) :
    (generatorPass nn log alog i root c).length = c.length := by
  simp only [generatorPass, List.length_set, length_generatorDown]

@[simp] theorem length_generatorPasses (nn : Nat) (log alog : Table) (prim count i root : Nat)
    (c : List Byte) : (generatorPasses nn log alog prim count i root c).length = c.length := by
  induction count generalizing i root c with
  | zero => rfl
  | succ count ih => rw [generatorPasses, ih, length_generatorPass]

/-- The builder answers exactly nroots + 1 coefficients (rule R56). -/
theorem length_buildGenerator (nn : Nat) (log alog : Table) (fcr prim nroots : Nat) :
    (buildGenerator nn log alog fcr prim nroots).length = nroots + 1 := by
  simp [buildGenerator]

/-- An inverse the search answers is in 1 .. nn and is one. -/
theorem iPrim_eq_some {nn prim i : Nat} (h : iPrim nn prim = some i) :
    Nat.gcd prim nn = 1 ∧ 1 ≤ i ∧ i ≤ nn ∧ modReduce nn (i * prim) = 1 % nn := by
  unfold iPrim at h
  split at h
  · cases h
  · rename_i hg
    have hm := List.mem_of_find?_eq_some h
    have hp := List.find?_some h
    obtain ⟨j, hj, rfl⟩ := List.mem_map.mp hm
    have := List.mem_range.mp hj
    exact ⟨by simpa using hg, by omega, by omega, by simpa using hp⟩

/-! ## INIT (rule R73) -/

/-- What INIT can compute: the range error, the field error, or the configuration its tables give. -/
theorem initResult_cases (p : Params) :
    (initResult p = .error .invalidParameter ∧
      ¬(symwInRange p = true ∧ fcrInRange p = true ∧ primInRange p = true ∧ nrootsInRange p = true
        ∧ padInRange p = true)) ∨
    ((symwInRange p = true ∧ fcrInRange p = true ∧ primInRange p = true ∧ nrootsInRange p = true
        ∧ padInRange p = true) ∧
      ((initResult p = .error .nonPrimitivePolynomial ∧ buildField p.symw.toNat p.poly.toNat = none) ∨
        ∃ log alog, buildField p.symw.toNat p.poly.toNat = some (log, alog) ∧
          initResult p = .ok (configurationOf p log alog
            (buildGenerator p.nn log alog p.fcr.toNat p.prim.toNat p.nroots.toNat)
            (iPrim p.nn p.prim.toNat)))) := by
  by_cases h : symwInRange p = true ∧ fcrInRange p = true ∧ primInRange p = true
      ∧ nrootsInRange p = true ∧ padInRange p = true
  · refine .inr ⟨h, ?_⟩
    obtain ⟨h1, h2, h3, h4, h5⟩ := h
    cases hb : buildField p.symw.toNat p.poly.toNat with
    | none => exact .inl ⟨by simp [initResult, h1, h2, h3, h4, h5, hb], rfl⟩
    | some t => exact .inr ⟨t.1, t.2, rfl, by simp [initResult, h1, h2, h3, h4, h5, hb]⟩
  · refine .inl ⟨?_, h⟩
    unfold initResult
    split
    · rfl
    · split
      · rfl
      · split
        · rfl
        · split
          · rfl
          · split
            · rfl
            · simp_all

/-! ## The encoder (rules R62 and R64) -/

/-- The symbols are read exactly when each is written and at most nn; then they are the entries. -/
theorem readSymbols_ok_iff (nn : Nat) (data : Memory) (i count : Nat) (ds : List Byte) :
    readSymbols nn data i count = .ok ds ↔
      ds.length = count ∧ ∀ j, j < count → ∃ d, Memory.read data (i + j) = some d ∧ d.toNat ≤ nn
        ∧ ds[j]? = some d := by
  induction count generalizing i ds with
  | zero =>
    simp only [readSymbols, Except.ok.injEq, Nat.not_lt_zero, false_implies, implies_true, and_true,
      List.length_eq_zero_iff]
    exact eq_comm
  | succ count ih =>
    have shift : (∀ j, j < count + 1 → ∃ d, Memory.read data (i + j) = some d ∧ d.toNat ≤ nn
          ∧ ds[j]? = some d) ↔
        (∃ d, Memory.read data i = some d ∧ d.toNat ≤ nn ∧ ds[0]? = some d) ∧
        ∀ j, j < count → ∃ d, Memory.read data (i + 1 + j) = some d ∧ d.toNat ≤ nn
          ∧ ds[j + 1]? = some d := by
      constructor
      · intro h
        refine ⟨by simpa using h 0 (by omega), fun j hj => ?_⟩
        have := h (j + 1) (by omega)
        rwa [show i + (j + 1) = i + 1 + j by omega] at this
      · rintro ⟨h0, h⟩ j hj
        cases j with
        | zero => simpa using h0
        | succ j =>
          rw [show i + (j + 1) = i + 1 + j by omega]
          exact h j (by omega)
    rw [shift, readSymbols]
    cases hr : Memory.read data i with
    | none => simp
    | some d =>
      by_cases hd : nn < d.toNat
      · simp only [hd, if_true]
        constructor
        · intro h
          cases h
        · rintro ⟨-, ⟨d', h1, h2, -⟩, -⟩
          cases h1
          omega
      · simp only [hd, if_false]
        cases hs : readSymbols nn data (i + 1) count with
        | error r =>
          constructor
          · intro h
            cases h
          · rintro ⟨hl, ⟨d', h1, h2, h3⟩, h⟩
            have := (ih (i + 1) ds.tail).mpr ⟨by simp [hl], fun j hj => by
              obtain ⟨e, he⟩ := h j hj
              exact ⟨e, he.1, he.2.1, by simpa using he.2.2⟩⟩
            rw [hs] at this
            cases this
        | ok es =>
          have hes := (ih (i + 1) es).mp hs
          constructor
          · intro h
            cases h
            exact ⟨by simp [hes.1], ⟨d, rfl, by omega, rfl⟩, fun j hj => by simpa using hes.2 j hj⟩
          · rintro ⟨hl, ⟨d', h1, h2, h3⟩, h⟩
            cases h1
            cases ds with
            | nil => simp at hl
            | cons a as =>
              simp only [List.length_cons, Nat.add_right_cancel_iff] at hl
              have := (ih (i + 1) as).mpr ⟨hl, fun j hj => by simpa using h j hj⟩
              rw [hs] at this
              cases this
              simp only [List.getElem?_cons_zero, Option.some.injEq] at h3
              rw [h3]

/-- A fault while reading symbols is that of an entry which is unwritten or above nn. -/
theorem readSymbols_error {nn : Nat} {data : Memory} {i count : Nat} {r : Fault}
    (h : readSymbols nn data i count = .error r) :
    ∃ j, i ≤ j ∧ j < i + count ∧ ((Memory.read data j = none ∧ r = .encodeDataUnwritten j) ∨
      ∃ d, Memory.read data j = some d ∧ nn < d.toNat ∧ r = .encodeSymbolRange j) := by
  induction count generalizing i with
  | zero => cases h
  | succ count ih =>
    rw [readSymbols] at h
    split at h
    · cases h
      exact ⟨i, by omega, by omega, .inl ⟨‹_›, rfl⟩⟩
    · split at h
      · cases h
        exact ⟨i, by omega, by omega, .inr ⟨_, ‹_›, ‹_›, rfl⟩⟩
      · split at h
        · cases h
          obtain ⟨j, h1, h2, hj⟩ := ih ‹_›
          exact ⟨j, by omega, by omega, hj⟩
        · cases h

theorem length_tapsApplied (t : EncoderTables) (n fb : Nat) (p : List Byte) (hp : p.length = n) :
    (tapsApplied t n fb p).length = n := by
  unfold tapsApplied
  split
  · simp
  · exact hp

/-- One iteration keeps the working register's length. -/
theorem length_encodeStep (t : EncoderTables) (n : Nat) (p : List Byte) (d : Byte) (hn : 1 ≤ n)
    (hp : p.length = n) : (encodeStep t n p d).length = n := by
  simp only [encodeStep, List.length_append, List.length_drop, length_tapsApplied t n _ p hp,
    List.length_cons, List.length_nil]
  omega

/-- The encoder answers n parity symbols. -/
theorem length_encodeRun (t : EncoderTables) (n : Nat) (ds : List Byte) (hn : 1 ≤ n) :
    (encodeRun t n ds).length = n := by
  have h : ∀ (ds p : List Byte), p.length = n → (ds.foldl (encodeStep t n) p).length = n := by
    intro ds
    induction ds with
    | nil => exact fun p hp => hp
    | cons d ds ih => exact fun p hp => ih _ (length_encodeStep t n p d hn hp)
  exact h ds _ (by simp)

end Sys2Proof.Machine
end

