-- ==== Sys2Proof/Laws/PerInstr.lean ====
section
/-! SUPPORT. Statements made per instruction. -/

namespace Sys2Proof.Laws.WriteEnable

/-- T[43] of an instruction's word is 0 for RD and 1 for every other row (rule R37). -/
def Statement (i : Instr) : Prop :=
  TWord.we (encodeInstr i) = match i with | .rd _ => false | _ => true

theorem we_ofFields (w : Bool) (a : WAddr) (v : Word) : TWord.we (TWord.ofFields w a v) = w := by
  simp only [TWord.we, TWord.ofFields, BitVec.getLsbD_append]
  simp

theorem nop : Statement .nop := we_ofFields _ _ _
theorem init : Statement .init := we_ofFields _ _ _
theorem encode : Statement .encode := we_ofFields _ _ _
theorem rsvdCmd3 : Statement .rsvdCmd3 := we_ofFields _ _ _
theorem rsvdCmd4to7 (op : BitVec 4) : Statement (.rsvdCmd4to7 op) := we_ofFields _ _ _
theorem rsvdCmd8to15 (op : BitVec 4) : Statement (.rsvdCmd8to15 op) := we_ofFields _ _ _
theorem wr (waddr : WAddr) (wdata : Word) : Statement (.wr waddr wdata) := we_ofFields _ _ _
theorem rd (waddr : WAddr) : Statement (.rd waddr) := we_ofFields _ _ _

end Sys2Proof.Laws.WriteEnable
end

