-- ==== Sys2Proof/Laws/Step.lean ====
section
/-! SUPPORT. What each instruction and a step can do, said once. -/

namespace Sys2Proof.Machine

/-! ## The bus queue -/

theorem nextEvent_faulted (s : State) (r : Fault) (h : s.fault = some r) : nextEvent s = .stuck r := by
  simp [nextEvent, h]

theorem nextEvent_idle (s : State) (h : s.fault = none) (hp : s.pending = []) : nextEvent s = .idle := by
  simp [nextEvent, h, hp]

theorem nextEvent_word (s : State) (t : TWord) (rest : List BusRequest) (h : s.fault = none)
    (hp : s.pending = .word t :: rest) : nextEvent s = .issued (decodeWord t) (s.take rest) := by
  simp [nextEvent, h, hp, BusRequest.toWord]

/-- A request that is refused is a byte addressed one, and the reason is BusRequestRefused. -/
theorem BusRequest.toWord_error {q : BusRequest} {r : Fault} (h : q.toWord = .error r) :
    r = .busRequestRefused := by
  cases q with
  | word t => cases h
  | byteRead a n =>
    simp only [BusRequest.toWord] at h
    split at h <;> simp_all
  | byteWrite a n v =>
    simp only [BusRequest.toWord] at h
    split at h <;> simp_all

/-- What the bus can do next. -/
theorem nextEvent_cases (s : State) :
    (∃ r, s.fault = some r ∧ nextEvent s = .stuck r) ∨
    (s.fault = none ∧ s.pending = [] ∧ nextEvent s = .idle) ∨
    (s.fault = none ∧ ∃ q rest, s.pending = q :: rest ∧
      ((q.toWord = .error .busRequestRefused ∧ nextEvent s = .refused .busRequestRefused) ∨
        ∃ t, q.toWord = .ok t ∧ nextEvent s = .issued (decodeWord t) (s.take rest))) := by
  cases hf : s.fault with
  | some r => exact .inl ⟨r, rfl, nextEvent_faulted s r hf⟩
  | none =>
    cases hp : s.pending with
    | nil => exact .inr (.inl ⟨rfl, rfl, nextEvent_idle s hf hp⟩)
    | cons q rest =>
      refine .inr (.inr ⟨rfl, q, rest, rfl, ?_⟩)
      cases hq : q.toWord with
      | error r =>
        cases BusRequest.toWord_error hq
        exact .inl ⟨rfl, by simp [nextEvent, hf, hp, hq]⟩
      | ok t => exact .inr ⟨t, rfl, by simp [nextEvent, hf, hp, hq]⟩

/-! ## What each meaning can do -/

/-- INIT writes an error code, or commits what it computed from the parameters. -/
theorem execInit_cases (s : State) :
    (∃ e, initResult s.params = .error e ∧ execInit s = .next (s.setErr e)) ∨
    ∃ c, initResult s.params = .ok c ∧ execInit s = .next (s.commit c) := by
  unfold execInit
  cases initResult s.params with
  | error e => exact .inl ⟨e, rfl, rfl⟩
  | ok c => exact .inr ⟨c, rfl, rfl⟩

/-- ENCODE faults, does nothing but clear ERR when nroots = 0, or writes the parity and clears ERR. -/
theorem execEncode_cases (s : State) :
    (s.status.valid = false ∧ execEncode s = .fault .encodeNotInitialized) ∨
    (s.status.valid = true ∧ s.cfg.nroots.toNat = 0 ∧ execEncode s = .next (s.setErr .none)) ∨
    (s.status.valid = true ∧ s.cfg.nroots.toNat ≠ 0 ∧
      ((∃ r, readSymbols s.cfg.nn.toNat s.data 0 s.cfg.k.toNat = .error r ∧ execEncode s = .fault r) ∨
        ∃ ds, readSymbols s.cfg.nn.toNat s.data 0 s.cfg.k.toNat = .ok ds ∧
          execEncode s = .next ((s.writeParityAll
            (encodeRun s.encoderTables s.cfg.nroots.toNat ds)).setErr .none))) := by
  cases hv : s.status.valid with
  | false => exact .inl ⟨rfl, by simp [execEncode, hv, raiseFault]⟩
  | true =>
    by_cases hn : s.cfg.nroots.toNat = 0
    · exact .inr (.inl ⟨rfl, hn, by simp only [execEncode, hv, hn]; rfl⟩)
    · refine .inr (.inr ⟨rfl, hn, ?_⟩)
      cases hr : readSymbols s.cfg.nn.toNat s.data 0 s.cfg.k.toNat with
      | error r => exact .inl ⟨r, rfl, by simp only [execEncode, hv, hn, hr]; rfl⟩
      | ok ds => exact .inr ⟨ds, rfl, by simp only [execEncode, hv, hn, hr]; rfl⟩

/-- A write at an address other than CMD stores into one register or entry, or does nothing. -/
theorem busWrite_cases (a : WAddr) (v : Word) (s : State) :
    (targetOf a = .cmd ∧ busWrite a v s = runCommand (commandOp v) s) ∨
    (∃ r, targetOf a = .param r ∧ busWrite a v s = .next (s.writeParam r (paramOperand v))) ∨
    (∃ i, targetOf a = .data i ∧ busWrite a v s = .next (s.writeData i (symbolOperand v))) ∨
    (∃ j, targetOf a = .parity j ∧ busWrite a v s = .next (s.writeParity j (symbolOperand v))) ∨
    busWrite a v s = .next s := by
  unfold busWrite
  cases targetOf a <;> simp

/-- A read answers a word, or faults because the entry is unwritten. -/
theorem execRd_cases (a : WAddr) (s : State) :
    (∃ v, busRead s a = .ok v ∧ execRd a s = .next (s.respond v)) ∨
    ∃ r, busRead s a = .error r ∧ execRd a s = .fault r := by
  unfold execRd
  cases busRead s a with
  | error r => exact .inr ⟨r, rfl, rfl⟩
  | ok v => exact .inl ⟨v, rfl, rfl⟩

/-- The only reason a read faults. -/
theorem busRead_error {s : State} {a : WAddr} {r : Fault} (h : busRead s a = .error r) :
    r = .readUnwritten a := by
  have buffer : ∀ (m : Memory) (i : Byte), bufferBusValue m i a = .error r → r = .readUnwritten a := by
    intro m i h
    unfold bufferBusValue at h
    split at h <;> simp_all
  unfold busRead at h
  split at h <;> first | exact buffer _ _ h | cases h

/-- The addresses of the DATA entries (rule R31). -/
theorem targetOf_eq_data {a : WAddr} {i : Byte} (h : targetOf a = .data i) :
    0x400 ≤ a.toNat ∧ a.toNat ≤ 0x4FF ∧ i.toNat = a.toNat - 0x400 := by
  have all : ∀ a : WAddr, (match targetOf a with
      | .data i => decide (0x400 ≤ a.toNat ∧ a.toNat ≤ 0x4FF ∧ i.toNat = a.toNat - 0x400)
      | _ => true) = true := by decide +kernel
  have := all a
  rw [h] at this
  simpa using this

/-- The addresses of the PARITY entries (rule R31). -/
theorem targetOf_eq_parity {a : WAddr} {j : Byte} (h : targetOf a = .parity j) :
    0x500 ≤ a.toNat ∧ a.toNat ≤ 0x5FF ∧ j.toNat = a.toNat - 0x500 := by
  have all : ∀ a : WAddr, (match targetOf a with
      | .parity j => decide (0x500 ≤ a.toNat ∧ a.toNat ≤ 0x5FF ∧ j.toNat = a.toNat - 0x500)
      | _ => true) = true := by decide +kernel
  have := all a
  rw [h] at this
  simpa using this

/-- CMD is the target of address 0 alone. -/
theorem targetOf_eq_cmd_iff (a : WAddr) : targetOf a = .cmd ↔ a = 0 := by
  revert a
  decide +kernel

end Sys2Proof.Machine
end

