-- ==== Sys2Proof/Tests/Slice0.lean ====
section
/-! SUPPORT. The model's own tests, and a witness for the hypotheses of each statement. Expected values come
from the spec: the section of 95_test_vectors.md, or the rule, is named beside each. -/

namespace Sys2Proof.Tests

open Sys2Proof.Machine

/-! ## Helpers -/

/-- The outcome is a next state with the property. -/
def onNext (o : Host.Outcome State Fault Refusal) (p : State → Bool) : Bool :=
  match o with
  | .next t => p t
  | .fault _ => false
  | .refused _ => false

/-- The outcome is that fault. -/
def isFault (o : Host.Outcome State Fault Refusal) (r : Fault) : Bool :=
  match o with
  | .next _ => false
  | .fault r' => r == r'
  | .refused _ => false

theorem next_of_onNext {o : Host.Outcome State Fault Refusal} {p : State → Bool} (s : State)
    (h : onNext o p = true) : o = .next (s.after o) := by
  cases o with
  | next t => rfl
  | fault r => cases h
  | refused r => cases h

theorem fault_of_isFault {o : Host.Outcome State Fault Refusal} {r : Fault} (h : isFault o r = true) :
    o = .fault r := by
  cases o with
  | next t => cases h
  | fault r' => exact congrArg _ (beq_iff_eq.mp h).symm
  | refused r' => cases h

/-- Reset with the six parameter registers written. -/
def withParams (m poly fcr prim nroots pad : Half) : State :=
  { State.reset with params := ⟨m, poly, fcr, prim, nroots, pad⟩ }

/-- The state after INIT on reset with those parameters. -/
def afterInit (m poly fcr prim nroots pad : Half) : State :=
  State.reset.after (exec .init (withParams m poly fcr prim nroots pad))

/-- The configuration of vector E3 with its data. -/
def e3 : State := { afterInit 3 0xb 0 1 2 2 with data := [(0, 1), (1, 2), (2, 3)] }

/-- The configuration of vector E8 (a zero generator coefficient) with DATA[0] = 1. -/
def e8 : State := { afterInit 2 0x7 0 3 2 0 with data := [(0, 1)] }

/-- E3's configuration with one symbol less of padding: k = 4, a leading zero symbol. -/
def e3long : State := { afterInit 3 0xb 0 1 2 1 with data := [(0, 0), (1, 1), (2, 2), (3, 3)] }

/-! ## The parameters of rule R7 against the widths the types use -/

theorem test_parameters :
    Config.maxSymw = 8 ∧ Config.nnMax = 255 ∧ Config.tableDepth = 256 ∧ Config.bufDepth = 256
      ∧ Config.nnMax = blockLength Config.maxSymw := by decide

/-! ## Well-formedness (spec/opcode_table.json): an ill-formed term for each check -/

theorem test_wf_refuses_op_below_4_7 : Instr.wf (.rsvdCmd4to7 3) = false := by decide
theorem test_wf_refuses_op_above_4_7 : Instr.wf (.rsvdCmd4to7 8) = false := by decide
theorem test_wf_refuses_op_below_8_15 : Instr.wf (.rsvdCmd8to15 7) = false := by decide
theorem test_wf_refuses_wr_to_cmd : Instr.wf (.wr 0 1) = false := by decide

/-! ## Decoding: words written out bit by bit from rule R37 (WE, WADDR, WDATA) -/

theorem test_decode_nop :
    decodeWord 0b1_00000000000_11111111111111111111111111110000#44 = .nop := by decide
theorem test_decode_init :
    decodeWord 0b1_00000000000_00000000000000000000000000000001#44 = .init := by decide
theorem test_decode_encode :
    decodeWord 0b1_00000000000_00000000000000000000000000000010#44 = .encode := by decide
theorem test_decode_rsvd3 :
    decodeWord 0b1_00000000000_00000000000000000000000000000011#44 = .rsvdCmd3 := by decide
theorem test_decode_rsvd4to7 :
    decodeWord 0b1_00000000000_00000000000000000000000000000101#44 = .rsvdCmd4to7 5 := by decide
theorem test_decode_rsvd8to15 :
    decodeWord 0b1_00000000000_00000000000000000000000000001111#44 = .rsvdCmd8to15 15 := by decide
theorem test_decode_wr :
    decodeWord 0b1_10000001111_00000000000000000000000000010001#44 = .wr 0x40f 0x11 := by decide
theorem test_decode_rd :
    decodeWord 0b0_01100000010_00000000000000000000000000000000#44 = .rd 0x302 := by decide
theorem test_decode_refuses_more_than_44_bits :
    decode 0x100000000000 = .error .notATransactionWord := by decide
theorem test_decodeTableWord : decodeTableWord 48 0x80000000002 = some .encode := by decide

/-! ## The address map (20_memory.md rule R31): the edges of its regions -/

theorem test_map_control_edges :
    targetOf 0x009 = .param .pad ∧ targetOf 0x00a = .reserved ∧ targetOf 0x018 = .cfg .iprim
      ∧ targetOf 0x019 = .reserved ∧ targetOf 0x0ff = .reserved := by decide
theorem test_map_array_edges :
    targetOf 0x100 = .log 0 ∧ targetOf 0x2ff = .alog 255 ∧ targetOf 0x300 = .genpoly 0
      ∧ targetOf 0x4ff = .data 255 ∧ targetOf 0x500 = .parity 0 ∧ targetOf 0x600 = .reserved := by decide

/-! ## The builders (95_test_vectors.md 2.1, 2.3, 2.4, 2.5) -/

theorem test_modReduce : modReduce 255 510 = 0 ∧ modReduce 255 300 = 45 ∧ modReduce 1 7 = 0 := by decide
theorem test_field_tables :
    (buildField 3 0xb).map (fun t =>
      ((List.range 8).map (fun i => (Table.entry t.2 i).toNat),
        (List.range 8).map (fun i => (Table.entry t.1 i).toNat)))
      = some ([1, 2, 4, 3, 6, 7, 5, 0], [7, 0, 1, 3, 2, 6, 4, 5]) := by decide +kernel
theorem test_field_rejects_proper_divisor : buildField 4 0x1f = none := by decide +kernel
theorem test_field_smallest :
    (buildField 1 0x3).map (fun t => (Table.entry t.2 0, Table.entry t.2 1, Table.entry t.1 0, Table.entry t.1 1))
      = some (1, 0, 1, 0) := by decide +kernel
theorem test_iprim : iPrim 255 7 = some 73 ∧ iPrim 255 3 = none ∧ iPrim 1 1 = some 1 := by decide +kernel

/-! ## INIT (95_test_vectors.md 2.4, 2.6) -/

theorem test_init_commits :
    onNext (exec .init (withParams 3 0xb 5 3 3 0)) (fun t =>
      (List.range 4).map (fun j => (Table.entry t.genpoly j).toNat) == [5, 3, 6, 0]
        && t.status == ⟨true, true, 0⟩ && t.cfg.k == 4) = true := by decide +kernel
theorem test_init_range_before_primitivity :
    onNext (exec .init (withParams 8 0x11b 256 1 10 0)) (fun t => t.status.busWord == 0x10) = true := by
  decide +kernel

/-! ## ENCODE (95_test_vectors.md 2.7) -/

theorem test_encode_E3 : onNext (exec .encode e3) (fun t => t.parity == [(0, 4), (1, 4)]) = true := by
  decide +kernel
theorem test_encode_E8_sentinel : onNext (exec .encode e8) (fun t => t.parity == [(0, 1), (1, 1)]) = true := by
  decide +kernel

/-! ## Bus accesses, NOP and reserved codes (95_test_vectors.md 2.7 E11, 2.8) -/

theorem test_wr_truncates_parameter :
    onNext (exec (.wr 0x006 0x12345678) State.reset) (fun t => t.params.fcr == 0x5678) = true := by decide
theorem test_wr_ignores_status : onNext (exec (.wr 0x001 0xff) State.reset) (fun t => t == State.reset) = true := by
  decide
theorem test_rd_table_while_invalid :
    onNext (exec (.rd 0x100) State.reset) (fun t => t.response == some 0) = true := by decide
theorem test_rd_unwritten : isFault (exec (.rd 0x500) State.reset) (.readUnwritten 0x500) = true := by decide
theorem test_reserved_sets_err :
    onNext (exec (.rsvdCmd8to15 15) State.reset) (fun t => t.status.busWord == 0x30) = true := by decide
theorem test_nop_keeps_err :
    onNext (exec .nop (State.reset.setErr .illegalCommand)) (fun t => t.status.busWord == 0x30) = true := by decide

/-! ## Steps and requests (rules R26, R34) -/

theorem test_step_runs_fetched_word :
    onNext (step (State.reset.withFetchWord 48 0x8000000000f)) (fun t => t.status.err == 3 && t.pending == []) = true := by
  decide
theorem test_misaligned_request_refused :
    isFault (step (State.reset.issue (.byteRead 6 4))) .busRequestRefused = true := by decide

/-! ## Assembly lines (rule R40; program P1 of 95_test_vectors.md) -/

theorem test_asm_params :
    asmParse "params 8, 0x11d, 0, 1, 10, 229 ; QR".toList = some (some (.params 8 0x11d 0 1 10 229))
      ∧ (AsmLine.params 8 0x11d 0 1 10 229).expand =
        [0x80400000008, 0x8050000011d, 0x80600000000, 0x80700000001, 0x8080000000a, 0x809000000e5] := by
  decide +kernel
theorem test_asm_rd : asmParse "rd PARITY[9] => 0x55".toList = some (some (.rd 0x509 (some 0x55))) := by
  decide +kernel

/-! ## Witnesses: for each statement with hypotheses, a state and operands that meet them together -/

theorem e3_encodes : onNext (exec .encode e3) (fun _ => true) = true := by decide +kernel
theorem e3_inv : e3.Inv := by decide +kernel
theorem e3_nroots : e3.cfg.nroots = 2 := by decide +kernel

theorem witness_ResetLeavesTheUninitializedBlock :
    (0x100 ≤ (0x100 : WAddr).toNat ∧ (0x3FF : WAddr).toNat ≤ 0x3FF) ∧
    (step e3 = .next e3 ∧ e3.status.valid = true) ∧
    (State.reset.recordFault .encodeNotInitialized).fault = some .encodeNotInitialized :=
  ⟨by decide, ⟨rfl, by decide +kernel⟩, rfl⟩

theorem witness_StepRunsTheDecodedTransaction :
    (State.reset.issue (.word 0x80000000001)).fault = none ∧
    (State.reset.issue (.word 0x80000000001)).pending = .word 0x80000000001 :: [] ∧
    State.reset.pending = [] := ⟨rfl, rfl, rfl⟩

theorem witness_ByteRequestsAreWordAccessesOrRefused :
    (State.reset.issue (.byteRead 0 4)).fault = none ∧ (0 : ByteAddr).toNat % 4 = 0 ∧
    (State.reset.issue (.byteRead 0 4)).pending = .byteRead 0 4 :: [] ∧
    (0x1ffc : ByteAddr).toNat % 4 = 0 ∧
    (State.reset.issue (.byteWrite 0x1ffc 4 5)).pending = .byteWrite 0x1ffc 4 5 :: [] ∧
    ¬((0x1fff : ByteAddr).toNat % 4 = 0 ∧ 4 = 4) ∧
    (State.reset.issue (.byteRead 0x1fff 4)).pending = .byteRead 0x1fff 4 :: [] ∧
    ¬((0 : ByteAddr).toNat % 4 = 0 ∧ 2 = 4) := by decide

theorem witness_AFaultIsRecordedAndSticky :
    (State.reset.fault = none ∧
      step (State.reset.issue (.word 0x80000000002)) = .fault .encodeNotInitialized) ∧
    step State.reset = .next State.reset ∧
    (State.reset.recordFault .busRequestRefused).fault = some .busRequestRefused :=
  ⟨⟨rfl, rfl⟩, rfl, rfl⟩

theorem witness_DecodingAnEncodedInstructionGivesItBack :
    (Instr.rsvdCmd4to7 4).wf = true ∧ (Instr.rsvdCmd4to7 7).wf = true ∧ (Instr.rsvdCmd8to15 8).wf = true ∧
    (Instr.wr 1 0).wf = true ∧ (Instr.wr 0x7ff 0xffffffff).wf = true := by decide

theorem witness_DecodingFollowsThePriorityOrder :
    (0x00100000000#44 : TWord).getLsbD 43 = false ∧
    ((0x80000000000#44 : TWord).getLsbD 43 = true ∧ (0x80000000000#44 : TWord).extractLsb' 32 11 = 0#11) ∧
    (((0x80000000004#44 : TWord).extractLsb' 0 4).toNat = 4 ∧ ((0x80000000007#44 : TWord).extractLsb' 0 4).toNat = 7 ∧
      ((0x80000000008#44 : TWord).extractLsb' 0 4).toNat = 8 ∧ ((0x80000000003#44 : TWord).extractLsb' 0 4).toNat = 3) ∧
    ((0x80100000000#44 : TWord).getLsbD 43 = true ∧ (0x80100000000#44 : TWord).extractLsb' 32 11 ≠ 0#11) := by
  decide

theorem witness_AssemblyLinesDecodeToTheirAccesses :
    (1 : WAddr) ≠ 0 ∧ 0 < ([7] : List Word).length ∧ ([7] : List Word).length ≤ 256 ∧ 255 < 256 ∧ 256 ≤ 256 := by
  decide

theorem witness_AReadCompletesUnlessTheEntryIsUnwritten :
    (Memory.read e3.data ((0x400 : WAddr).toNat - 0x400)).isSome = true ∧
    (Memory.read (State.reset.writeParity 255 7).parity ((0x5ff : WAddr).toNat - 0x500)).isSome = true ∧
    ¬(0x400 ≤ (0x3ff : WAddr).toNat) ∧ ¬((0x600 : WAddr).toNat ≤ 0x5FF) := by decide +kernel

theorem witness_AWriteRunsACommandOrStoresItsValue :
    ((0x80000000000#44 : TWord).extractLsb' 0 4).toNat = 0 ∧ ((0x80000000001#44 : TWord).extractLsb' 0 4).toNat = 1 ∧
    ((0x80000000002#44 : TWord).extractLsb' 0 4).toNat = 2 ∧
    (0x80000000003#44 : TWord).getLsbD 43 = true ∧ (0x80000000003#44 : TWord).extractLsb' 32 11 = 0#11 ∧
    3 ≤ ((0x80000000003#44 : TWord).extractLsb' 0 4).toNat ∧
    (0x80400000008#44 : TWord).getLsbD 43 = true ∧ (0x80400000008#44 : TWord).extractLsb' 32 11 ≠ 0#11 := by decide

theorem witness_AWriteStoresAndLeavesTheRest :
    (0x003 : WAddr) ≠ 0 ∧ (0x003 : WAddr).toNat < 0x004 ∧ 0x009 < (0x00a : WAddr).toNat ∧
    ParamReg.pad ≠ ParamReg.symw ∧ (255 : Nat) ≠ (0 : Byte).toNat ∧ (0x3ff : WAddr).toNat < 0x400 ∧ 0x5FF < (0x600 : WAddr).toNat := by decide

theorem witness_AParameterRegisterReadsBackAsWritten : ParamReg.pad ≠ ParamReg.symw := by decide

theorem witness_WritesElsewhereAreIgnored :
    ((0x003 : WAddr) ≠ 0 ∧ (0x003 : WAddr).toNat < 0x004) ∧
    (0x009 < (0x00a : WAddr).toNat ∧ (0x3ff : WAddr).toNat < 0x400) ∧ 0x5FF < (0x600 : WAddr).toNat := by decide

theorem witness_RepeatedAccessesAreIdempotent :
    exec (.rd 0x001) State.reset = .next (State.reset.respond 0) ∧
    exec (.wr 0x500 9) State.reset = .next (State.reset.writeParity 0 9) := ⟨rfl, rfl⟩

theorem witness_NopChangesNothing : (0x800fffffff0#44 : TWord) &&& 0xFFF0000000F#44 = 0x80000000000#44 := by
  decide

theorem witness_ReservedCodesReportIllegalCommand :
    4 ≤ (4 : BitVec 4).toNat ∧ (7 : BitVec 4).toNat ≤ 7 ∧ 8 ≤ (8 : BitVec 4).toNat ∧
    (0x80000000003#44 : TWord).getLsbD 43 = true ∧ (0x80000000003#44 : TWord).extractLsb' 32 11 = 0#11 ∧
    3 ≤ ((0x80000000003#44 : TWord).extractLsb' 0 4).toNat := by decide

theorem witness_InitRejectsParametersOutOfRange :
    ¬(1 ≤ (withParams 9 0x11d 0 1 10 0).params.symw.toNat ∧ (withParams 9 0x11d 0 1 10 0).params.symw.toNat ≤ 8) ∧
    ¬((withParams 8 0x11d 256 1 10 0).params.fcr.toNat ≤ 2 ^ 8 - 1) ∧
    ¬(1 ≤ (withParams 8 0x11d 0 0 10 0).params.prim.toNat ∧ (withParams 8 0x11d 0 0 10 0).params.prim.toNat ≤ 2 ^ 8 - 1) ∧
    ¬((withParams 8 0x11d 0 1 255 0).params.nroots.toNat ≤ 2 ^ 8 - 1 - 1) ∧
    ¬((withParams 8 0x11d 0 1 10 245).params.pad.toNat ≤ 2 ^ 8 - 1 - 10 - 1) ∧
    onNext (exec .init (withParams 3 0xb 0 1 2 2)) (fun t => t.status.err == 0) = true := by decide +kernel

theorem witness_InitRejectsNonPrimitivePolynomials :
    Reference.InRange (withParams 4 0x1f 0 1 4 0).params ∧ ¬ Reference.Primitive 4 0x1f := by decide +kernel

theorem witness_InitCommitsTheConfiguration :
    (Reference.InRange (withParams 4 0x13 15 15 14 0).params ∧ Nat.gcd 15 (2 ^ 4 - 1) ≠ 1) ∧
    (Reference.InRange (withParams 4 0x13 0 2 4 0).params ∧ Nat.gcd 2 (2 ^ 4 - 1) = 1) ∧
    Reference.Primitive 4 0x13 := by decide +kernel

theorem witness_InitCommitsTheBuiltTables :
    Reference.InRange (withParams 3 0xb 0 1 2 2).params ∧ (buildField 3 0xb).isSome = true := by decide +kernel

theorem witness_AFailedInitWritesOnlyErr :
    onNext (exec .init State.reset) (fun t => t.status.err != 0) = true := by decide +kernel

theorem witness_InitDependsOnlyOnTheParameters :
    (withParams 3 0xb 0 1 2 2).params = ((withParams 3 0xb 0 1 2 2).setErr .illegalCommand).params ∧
    onNext (exec .init (withParams 3 0xb 0 1 2 2)) (fun t => t.status.err == 0) = true := by decide +kernel

theorem witness_IprimIsTheInverseOrAbsent :
    (Reference.InRange (withParams 4 0x13 0 2 4 0).params ∧ Reference.Primitive 4 0x13 ∧ Nat.gcd 2 (2 ^ 4 - 1) = 1) ∧
    (Reference.InRange (withParams 1 0x3 1 1 0 0).params ∧ Reference.Primitive 1 0x3 ∧ Nat.gcd 1 (2 ^ 1 - 1) = 1) ∧
    (Reference.InRange (withParams 4 0x13 0 3 4 0).params ∧ Nat.gcd 3 (2 ^ 4 - 1) ≠ 1) := by decide +kernel

theorem witness_OnlyTheLowBitsOfThePolynomialMatter : 0xff13 % 2 ^ 4 = 0x03 % 2 ^ 4 := by decide

theorem witness_TheSubtractingFoldComputesModReduce : 1 ≤ 1 := Nat.le_refl 1

theorem witness_TheFieldBuilderAcceptsExactlyPrimitivePolynomials : (1 ≤ 1 ∧ 1 ≤ 8) ∧ (1 ≤ 8 ∧ 8 ≤ 8) := by
  decide

/-- For TheTablesAreLogarithmAndAntilogarithm, TableMultiplicationIsFieldMultiplication,
LogDomainProductIsTheProductBelowTheSentinel and TheGeneratorIsTheProductOfItsRootFactors: a field that is
built, elements a and b at the edges 0 and nn = 7, log values la and indices i at the edges 0 and nn - 1. -/
theorem witness_built_tables : 1 ≤ 3 ∧ 3 ≤ 8 ∧ (∃ log alog, buildField 3 0xb = some (log, alog)) ∧
    (0 : Byte).toNat ≤ 2 ^ 3 - 1 ∧ (7 : Byte).toNat ≤ 2 ^ 3 - 1 ∧ 0 < 2 ^ 3 - 1 ∧ 6 < 2 ^ 3 - 1 := by
  have h : (buildField 3 0xb).isSome = true := by decide +kernel
  obtain ⟨t, ht⟩ := Option.isSome_iff_exists.mp h
  exact ⟨by decide, by decide, ⟨t.1, t.2, ht⟩, by decide⟩

/-- For AValidConfigurationIsInRange, GeneratorEntriesOfAValidConfiguration and
TheGeneratorVanishesAtItsRoots, whose root index i = 1 is below nroots. -/
theorem witness_valid_configuration : e3.Inv ∧ e3.status.valid = true ∧ 1 < e3.cfg.nroots.toNat :=
  ⟨e3_inv, by decide +kernel, by decide +kernel⟩

theorem witness_EncodeFaultsOnTheFirstViolatedPrecondition :
    State.reset.status.valid = false ∧
    (e3.status.valid = true ∧ e3.cfg.nroots ≠ 0 ∧ 2 < e3.cfg.k.toNat ∧
      (∀ j, j < 2 → ∃ d, Memory.read e3.data j = some d ∧ d.toNat ≤ e3.cfg.nn.toNat)) ∧
    Memory.read (afterInit 3 0xb 0 1 2 2).data 0 = none ∧
    (Memory.read (e3.writeData 2 8).data 2 = some 8 ∧ (e3.writeData 2 8).cfg.nn.toNat < (8 : Byte).toNat) := by
  refine ⟨rfl, ⟨by decide +kernel, by decide +kernel, by decide +kernel, ?_⟩, by decide +kernel, by decide +kernel⟩
  intro j hj
  have : j = 0 ∨ j = 1 := by omega
  rcases this with rfl | rfl
  · exact ⟨1, rfl, by decide +kernel⟩
  · exact ⟨2, rfl, by decide +kernel⟩

theorem witness_EncodeWithoutRootsOnlyClearsErr :
    (afterInit 3 0xb 0 1 0 0).status.valid = true ∧ (afterInit 3 0xb 0 1 0 0).cfg.nroots = 0 := by decide +kernel

theorem witness_EncodeWritesTheShiftRegister :
    e3.status.valid = true ∧ e3.cfg.nroots ≠ 0 ∧ ([1, 2, 3] : List Byte).length = e3.cfg.k.toNat ∧
    (∀ i (h : i < ([1, 2, 3] : List Byte).length), Memory.read e3.data i = some ([1, 2, 3] : List Byte)[i] ∧
      ([1, 2, 3] : List Byte)[i].toNat ≤ e3.cfg.nn.toNat) := by
  refine ⟨by decide +kernel, by decide +kernel, by decide +kernel, ?_⟩
  have hn : e3.cfg.nn.toNat = 7 := by decide +kernel
  rw [hn]
  exact fun i h => by
    have : i = 0 ∨ i = 1 ∨ i = 2 := by simp at h; omega
    rcases this with rfl | rfl | rfl <;> exact ⟨rfl, by simp⟩

theorem witness_EncodeDependsOnlyOnWhatItReads :
    e3.status.valid = (e3.writeParam .prim 5).status.valid ∧ e3.cfg = (e3.writeParam .prim 5).cfg ∧
    e3.data = (e3.writeParam .prim 5).data ∧ exec .encode e3 = .next (e3.after (exec .encode e3)) :=
  ⟨rfl, rfl, rfl, next_of_onNext e3 e3_encodes⟩

theorem witness_EncodeStaysWithinItsConfinement :
    exec .encode e3 = .next (e3.after (exec .encode e3)) ∧
    exec .encode State.reset = .fault .encodeNotInitialized := ⟨next_of_onNext e3 e3_encodes, rfl⟩

theorem witness_LeadingZeroSymbolsDoNotChangeTheParity :
    e3.Inv ∧ e3long.status.valid = true ∧ e3.cfg.nn = e3long.cfg.nn ∧ e3.cfg.nroots = e3long.cfg.nroots ∧
    e3.log = e3long.log ∧ e3.alog = e3long.alog ∧ e3.genpoly = e3long.genpoly ∧
    e3long.cfg.k.toNat = 1 + e3.cfg.k.toNat ∧ Memory.read e3long.data 0 = some 0 ∧
    ((List.range 3).all fun i => Memory.read e3long.data (1 + i) == Memory.read e3.data i) = true ∧
    exec .encode e3 = .next (e3.after (exec .encode e3)) :=
  ⟨e3_inv, by decide +kernel, by decide +kernel, by decide +kernel, by decide +kernel, by decide +kernel,
    by decide +kernel, by decide +kernel, by decide +kernel, by decide +kernel, next_of_onNext e3 e3_encodes⟩

/-- For TheCodewordIsAMultipleOfTheGenerator and TheCodewordVanishesAtTheRoots. -/
theorem witness_codeword :
    e3.Inv ∧ e3.cfg.nroots ≠ 0 ∧
    (∀ j, 1 ≤ j → j < e3.cfg.nroots.toNat → (Table.entry e3.genpoly j).toNat < e3.cfg.nn.toNat) ∧
    exec .encode e3 = .next (e3.after (exec .encode e3)) := by
  refine ⟨e3_inv, by decide +kernel, fun j h1 h2 => ?_, next_of_onNext e3 e3_encodes⟩
  rw [e3_nroots] at h2
  obtain rfl : j = 1 := by
    simp at h2
    omega
  decide +kernel

theorem witness_EveryStepKeepsTheInvariant :
    (e3.issue (.word 0x80000000002)).Inv ∧ step (e3.issue (.word 0x80000000002)) =
      .next (e3.after (step (e3.issue (.word 0x80000000002)))) :=
  ⟨by decide +kernel, next_of_onNext (p := fun _ => true) e3 (by decide +kernel)⟩

theorem witness_FaultFreeRunsKeepTheInvariant : State.reset.Inv ∧ FaultFreeRun 1 State.reset State.reset :=
  ⟨by decide, rfl⟩

theorem witness_ErrIsWrittenOnlyByCommands :
    Instr.wf .init = true ∧ exec .init State.reset = .next (State.reset.setErr .invalidParameter) ∧
    Instr.wf .encode = true ∧ exec .encode e3 = .next (e3.after (exec .encode e3)) ∧
    Instr.wf (.wr 0x7ff 0) = true ∧ exec (.wr 0x7ff 0) State.reset = .next State.reset :=
  ⟨rfl, rfl, rfl, next_of_onNext e3 e3_encodes, rfl, rfl⟩

theorem witness_OnlyASuccessfulInitChangesTheConfiguration :
    Instr.wf .init = true ∧ exec .init (withParams 3 0xb 0 1 2 2) =
      .next (State.reset.after (exec .init (withParams 3 0xb 0 1 2 2))) :=
  ⟨rfl, next_of_onNext (p := fun _ => true) State.reset (by decide +kernel)⟩

theorem witness_EachRegisterAndBufferHasItsOwnWriters :
    Instr.wf (.wr 0x4ff 1) = true ∧
    exec (.wr 0x4ff 1) State.reset = .next (State.reset.writeData 255 1) := ⟨rfl, rfl⟩

theorem witness_OnlyEncodeAndReadsFault :
    (Instr.wf .encode = true ∧ exec .encode State.reset = .fault .encodeNotInitialized) ∧
    exec .encode (afterInit 3 0xb 0 1 2 2) = .fault (.encodeDataUnwritten 0) ∧
    exec .encode (e3.writeData 2 8) = .fault (.encodeSymbolRange 2) ∧
    (Instr.wf (.rd 0x4ff) = true ∧ exec (.rd 0x4ff) State.reset = .fault (.readUnwritten 0x4ff)) ∧
    (Instr.wf (.rd 0x500) = true ∧ exec (.rd 0x500) State.reset = .fault (.readUnwritten 0x500)) :=
  ⟨⟨rfl, rfl⟩, fault_of_isFault (by decide +kernel), fault_of_isFault (by decide +kernel), ⟨rfl, rfl⟩, rfl, rfl⟩

end Sys2Proof.Tests
end

/-! # Proofs: the state family (10_state.md) -/

/-! ## What an instruction and a step can do -/

namespace Sys2Proof.Machine

/-- Every way in which a well-formed instruction can complete from `s`, with the state it leaves. -/
inductive Effect (s : State) : Instr → State → Prop where
  | nop : Effect s .nop s
  | initFailed (e : ErrCode) : initResult s.params = .error e → Effect s .init (s.setErr e)
  | initCommitted (c : Configuration) : initResult s.params = .ok c → Effect s .init (s.commit c)
  | encodeWithoutRoots : s.status.valid = true → s.cfg.nroots.toNat = 0 →
      Effect s .encode (s.setErr .none)
  | encoded (ds : List Byte) : s.status.valid = true → s.cfg.nroots.toNat ≠ 0 →
      readSymbols s.cfg.nn.toNat s.data 0 s.cfg.k.toNat = .ok ds →
      Effect s .encode
        ((s.writeParityAll (encodeRun s.encoderTables s.cfg.nroots.toNat ds)).setErr .none)
  | rsvdCmd3 : Effect s .rsvdCmd3 (s.setErr .illegalCommand)
  | rsvdCmd4to7 (op : BitVec 4) : Effect s (.rsvdCmd4to7 op) (s.setErr .illegalCommand)
  | rsvdCmd8to15 (op : BitVec 4) : Effect s (.rsvdCmd8to15 op) (s.setErr .illegalCommand)
  | wrParam (a : WAddr) (v : Word) (r : ParamReg) : targetOf a = .param r →
      Effect s (.wr a v) (s.writeParam r (paramOperand v))
  | wrData (a : WAddr) (v : Word) (i : Byte) : targetOf a = .data i →
      Effect s (.wr a v) (s.writeData i (symbolOperand v))
  | wrParity (a : WAddr) (v : Word) (j : Byte) : targetOf a = .parity j →
      Effect s (.wr a v) (s.writeParity j (symbolOperand v))
  | wrIgnored (a : WAddr) (v : Word) : (∀ r, targetOf a ≠ .param r) → (∀ i, targetOf a ≠ .data i) →
      (∀ j, targetOf a ≠ .parity j) → Effect s (.wr a v) s
  | rd (a : WAddr) (v : Word) : busRead s a = .ok v → Effect s (.rd a) (s.respond v)

variable {s t : State}

/-- INIT completes by failing with its error code or by committing. -/
theorem effect_of_execInit (h : execInit s = .next t) : Effect s .init t := by
  obtain ⟨e, he, hx⟩ | ⟨c, hc, hx⟩ := execInit_cases s <;> rw [hx] at h <;> cases h
  · exact .initFailed e he
  · exact .initCommitted c hc

/-- ENCODE completes without roots, or after reading every symbol. -/
theorem effect_of_execEncode (h : execEncode s = .next t) : Effect s .encode t := by
  obtain ⟨-, hx⟩ | ⟨hv, hn, hx⟩ | ⟨hv, hn, ⟨r, -, hx⟩ | ⟨ds, hds, hx⟩⟩ := execEncode_cases s <;>
    rw [hx] at h <;> cases h
  · exact .encodeWithoutRoots hv hn
  · exact .encoded ds hv hn hds

/-- A write away from CMD stores into the register or entry it addresses, or is ignored. -/
theorem effect_of_execWr {a : WAddr} {v : Word} (ha : a ≠ 0) (h : execWr a v s = .next t) :
    Effect s (.wr a v) t := by
  have hcmd : targetOf a ≠ .cmd := fun hc => ha ((targetOf_eq_cmd_iff a).mp hc)
  unfold execWr busWrite at h
  cases ht : targetOf a with
  | cmd => exact absurd ht hcmd
  | param r => rw [ht] at h; cases h; exact .wrParam a v r ht
  | data i => rw [ht] at h; cases h; exact .wrData a v i ht
  | parity j => rw [ht] at h; cases h; exact .wrParity a v j ht
  | status | cfg | log | alog | genpoly | reserved =>
    rw [ht] at h; cases h
    exact .wrIgnored a v (by simp [ht]) (by simp [ht]) (by simp [ht])

/-- A read completes by answering the addressed word. -/
theorem effect_of_execRd {a : WAddr} (h : execRd a s = .next t) : Effect s (.rd a) t := by
  obtain ⟨v, hv, hx⟩ | ⟨r, -, hx⟩ := execRd_cases a s <;> rw [hx] at h <;> cases h
  exact .rd a v hv

/-- An instruction that completes has one of the effects. -/
theorem effect_of_exec {i : Instr} (hwf : i.wf = true) (h : exec i s = .next t) : Effect s i t := by
  cases i with
  | nop => cases h; exact .nop
  | init => exact effect_of_execInit h
  | encode => exact effect_of_execEncode h
  | rsvdCmd3 => cases h; exact .rsvdCmd3
  | rsvdCmd4to7 op => cases h; exact .rsvdCmd4to7 op
  | rsvdCmd8to15 op => cases h; exact .rsvdCmd8to15 op
  | wr a v => exact effect_of_execWr (of_decide_eq_true hwf) h
  | rd a => exact effect_of_execRd h

/-- Every command code decodes to a well-formed instruction. -/
theorem wf_decodeCommand (op : BitVec 4) : (decodeCommand op).wf = true := by
  revert op
  decide

/-- Every word decodes to a well-formed instruction. -/
theorem wf_decodeWord (w : TWord) : (decodeWord w).wf = true := by
  unfold decodeWord
  split
  · rfl
  · split
    · exact wf_decodeCommand _
    · rename_i ha
      exact decide_eq_true ha

/-- A step that completes starts without a fault; it is idle, or runs a well-formed instruction on the
state without its oldest request. -/
theorem step_next_cases (h : step s = .next t) :
    s.fault = none ∧ (t = s ∨ ∃ i rest, Effect (s.take rest) i t) := by
  unfold step at h
  obtain ⟨r, -, he⟩ | ⟨hf, -, he⟩ | ⟨hf, q, rest, -, ⟨-, he⟩ | ⟨w, -, he⟩⟩ := nextEvent_cases s <;>
    rw [he] at h
  · cases h
  · cases h; exact ⟨hf, .inl rfl⟩
  · cases h
  · exact ⟨hf, .inr ⟨decodeWord w, rest, effect_of_exec (wf_decodeWord w) h⟩⟩

/-! ## Addresses of the parameter registers (rule R31) -/

theorem targetOf_eq_param_iff (a : WAddr) (r : ParamReg) : targetOf a = .param r ↔ a = r.waddr := by
  revert a
  cases r <;> decide +kernel

theorem ParamReg.waddr_bounds (r : ParamReg) : 0x004 ≤ r.waddr.toNat ∧ r.waddr.toNat ≤ 0x009 := by
  cases r <;> decide

/-! ## What the effects leave unchanged -/

namespace Effect

variable {i : Instr} (h : Effect s i t)
include h

theorem fault_eq : t.fault = s.fault := by cases h <;> rfl

theorem pending_eq : t.pending = s.pending := by cases h <;> rfl

theorem params_eq_or : t.params = s.params ∨ ∃ a v, i = .wr a v ∧ 0x004 ≤ a.toNat ∧ a.toNat ≤ 0x009 := by
  cases h with
  | wrParam a v r ha => exact .inr ⟨a, v, rfl, (targetOf_eq_param_iff a r).mp ha ▸ r.waddr_bounds⟩
  | _ => exact .inl rfl

theorem data_eq_or : t.data = s.data ∨ ∃ a v, i = .wr a v ∧ 0x400 ≤ a.toNat ∧ a.toNat ≤ 0x4FF := by
  cases h with
  | wrData a v _ ha =>
    obtain ⟨hlo, hhi, -⟩ := targetOf_eq_data ha
    exact .inr ⟨a, v, rfl, hlo, hhi⟩
  | _ => exact .inl rfl

theorem parity_eq_or : t.parity = s.parity ∨ i = .encode ∨
    ∃ a v, i = .wr a v ∧ 0x500 ≤ a.toNat ∧ a.toNat ≤ 0x5FF := by
  cases h with
  | encoded => exact .inr (.inl rfl)
  | wrParity a v _ ha =>
    obtain ⟨hlo, hhi, -⟩ := targetOf_eq_parity ha
    exact .inr (.inr ⟨a, v, rfl, hlo, hhi⟩)
  | _ => exact .inl rfl

theorem response_eq_or : t.response = s.response ∨ ∃ a, i = .rd a := by
  cases h with
  | rd a => exact .inr ⟨a, rfl⟩
  | _ => exact .inl rfl

end Effect

/-! ## BuildField against the sequence of rule R46 -/

/-- BuildField's variables after its first `n` iterations. -/
def fieldPrefix (m poly n : Nat) : FieldBuild :=
  (List.range n).foldl (fieldIteration m poly) fieldStart

theorem fieldLoop_eq_fieldPrefix (m poly : Nat) :
    fieldLoop m poly = fieldPrefix m poly (blockLength m) := rfl

@[simp] theorem fieldPrefix_zero (m poly : Nat) : fieldPrefix m poly 0 = fieldStart := rfl

theorem fieldPrefix_succ (m poly n : Nat) :
    fieldPrefix m poly (n + 1) = fieldIteration m poly (fieldPrefix m poly n) n := by
  simp [fieldPrefix, List.range_succ]

/-- On values below 2^m the shift of the model is that of the sequence. -/
theorem fieldShift_eq_shift {m v : Nat} (poly : Nat) (hv : v < 2 ^ m) :
    fieldShift m poly v = Reference.shift m poly v := by
  have hbit : (2 * v).testBit m = decide (2 ^ m ≤ 2 * v) := by
    by_cases hle : 2 ^ m ≤ 2 * v
    · rw [Nat.testBit_of_two_pow_le_and_two_pow_add_one_gt hle (by rw [Nat.pow_succ]; omega),
        decide_eq_true hle]
    · rw [Nat.testBit_lt_two_pow (by omega), decide_eq_false hle]
  have hshl : v <<< 1 = 2 * v := by rw [Nat.shiftLeft_eq]; omega
  unfold fieldShift Reference.shift blockLength
  rw [hshl, hbit, Nat.and_two_pow_sub_one_eq_mod]
  by_cases hle : 2 ^ m ≤ 2 * v <;> simp [hle]

theorem power_succ (m poly n : Nat) :
    Reference.power m poly (n + 1) = Reference.shift m poly (Reference.power m poly n) :=
  Function.iterate_succ_apply' _ _ _

theorem power_lt {m : Nat} (poly n : Nat) (hm : 1 ≤ m) : Reference.power m poly n < 2 ^ m := by
  cases n with
  | zero => exact Nat.one_lt_two_pow (by omega)
  | succ n => rw [power_succ]; exact Nat.mod_lt _ (Nat.two_pow_pos m)

/-- The shift register of BuildField runs through the sequence. -/
theorem fieldPrefix_sr {m : Nat} (poly n : Nat) (hm : 1 ≤ m) :
    (fieldPrefix m poly n).sr = Reference.power m poly n := by
  induction n with
  | zero => rfl
  | succ n ih =>
    rw [fieldPrefix_succ, power_succ, ← fieldShift_eq_shift poly (power_lt poly n hm), ← ih]
    rfl

/-- BuildField notes an early 1 exactly when the sequence has met 1 before step nn. -/
theorem fieldPrefix_early {m : Nat} (poly n : Nat) (hm : 1 ≤ m) :
    (fieldPrefix m poly n).early = true ↔
      ∃ t, t < n ∧ t < blockLength m - 1 ∧ Reference.power m poly (t + 1) = 1 := by
  induction n with
  | zero => simp [fieldStart]
  | succ n ih =>
    have hsr : fieldShift m poly (fieldPrefix m poly n).sr = Reference.power m poly (n + 1) := by
      rw [← fieldPrefix_sr poly (n + 1) hm, fieldPrefix_succ]
      rfl
    have hstep : (fieldPrefix m poly (n + 1)).early = true ↔ (fieldPrefix m poly n).early = true ∨
        (n < blockLength m - 1 ∧ Reference.power m poly (n + 1) = 1) := by
      simp [fieldPrefix_succ, fieldIteration, hsr, and_comm]
    simp only [hstep, ih, Nat.lt_succ_iff_lt_or_eq, or_and_right, exists_or, exists_eq_left]

/-- BuildField accepts exactly the primitive polynomials (rules R46 and R49). -/
theorem buildField_isSome_iff_primitive {m : Nat} (poly : Nat) (hm : 1 ≤ m) :
    (buildField m poly).isSome = true ↔ Reference.Primitive m poly := by
  have hearly : (fieldLoop m poly).early = false ↔
      ∀ t, t < 2 ^ m - 1 → 0 < t → Reference.power m poly t ≠ 1 := by
    rw [← Bool.not_eq_true, fieldLoop_eq_fieldPrefix, fieldPrefix_early poly _ hm, blockLength]
    constructor
    · intro hno t hlt hpos hone
      exact hno ⟨t - 1, by omega, by omega, by rwa [Nat.sub_add_cancel hpos]⟩
    · rintro hno ⟨t, -, hlt, hone⟩
      exact hno (t + 1) (by omega) (by omega) hone
  have hsr : (fieldLoop m poly).sr = Reference.power m poly (2 ^ m - 1) := fieldPrefix_sr poly _ hm
  rw [Option.isSome_iff_exists]
  simp only [buildField_eq_some_iff, exists_and_left, exists_eq, and_true, hearly, hsr]

/-! ## What INIT computes (rules R73 to R81) -/

/-- The five range checks of INIT are the ranges of rules R74 to R78. -/
theorem rangeChecks_iff_inRange (p : Params) :
    (symwInRange p = true ∧ fcrInRange p = true ∧ primInRange p = true ∧ nrootsInRange p = true
      ∧ padInRange p = true) ↔ Reference.InRange p := by
  simp only [symwInRange, fcrInRange, primInRange, nrootsInRange, padInRange, decide_eq_true_eq]
  exact Iff.rfl

/-- A configuration INIT computes comes from parameters in range and the tables of a polynomial that
BuildField accepts. -/
theorem initResult_eq_ok {p : Params} {c : Configuration} (h : initResult p = .ok c) :
    Reference.InRange p ∧ ∃ log alog, buildField p.symw.toNat p.poly.toNat = some (log, alog) ∧
      c = configurationOf p log alog
        (buildGenerator p.nn log alog p.fcr.toNat p.prim.toNat p.nroots.toNat)
        (iPrim p.nn p.prim.toNat) := by
  obtain ⟨hx, -⟩ | ⟨hr, ⟨hx, -⟩ | ⟨log, alog, hb, hx⟩⟩ := initResult_cases p <;> rw [hx] at h <;> cases h
  exact ⟨(rangeChecks_iff_inRange p).mp hr, log, alog, hb, rfl⟩

/-- The block length of parameters in range fits its 8-bit field. -/
theorem Params.nn_bounds {p : Params} (h : Reference.InRange p) : 1 ≤ p.nn ∧ p.nn ≤ 255 := by
  obtain ⟨⟨-, hm⟩, -, ⟨hprim, hprim'⟩, -⟩ := h
  have hpow : 2 ^ p.symw.toNat ≤ 2 ^ 8 := Nat.pow_le_pow_right (by omega) hm
  unfold Params.nn blockLength
  omega

/-- A register value that fits a narrower field is shown whole by its mirror. -/
theorem setWidth_ofNat_toNat {w n : Nat} (x : BitVec w) (h : x.toNat < 2 ^ n) :
    (BitVec.ofNat n x.toNat).setWidth w = x := by
  apply BitVec.eq_of_toNat_eq
  rw [BitVec.toNat_setWidth, BitVec.toNat_ofNat, Nat.mod_eq_of_lt h, Nat.mod_eq_of_lt x.isLt]

/-- The mirrors of a committed configuration show the parameters it was computed from. -/
theorem mirroredParams_of_initResult {p : Params} {c : Configuration} (h : initResult p = .ok c) :
    mirroredParams c.cfg = p := by
  obtain ⟨hr, log, alog, -, rfl⟩ := initResult_eq_ok h
  obtain ⟨-, hnn⟩ := Params.nn_bounds hr
  obtain ⟨⟨-, hm⟩, hfcr, ⟨-, hprim⟩, hnroots, hpad⟩ := hr
  unfold Params.nn blockLength at hnn
  have hsymw : (BitVec.ofNat 4 p.symw.toNat).setWidth 16 = p.symw :=
    setWidth_ofNat_toNat _ (by omega)
  have hbyte : ∀ x : Half, x.toNat ≤ 255 → (BitVec.ofNat 8 x.toNat).setWidth 16 = x :=
    fun x hx => setWidth_ofNat_toNat x (by omega)
  simp only [mirroredParams, configurationOf, hsymw, hbyte p.fcr (by omega), hbyte p.prim (by omega),
    hbyte p.nroots (by omega), hbyte p.pad (by omega)]

/-- The tables INIT computes are in canonical form. -/
theorem wf_tables_of_initResult {p : Params} {c : Configuration} (h : initResult p = .ok c) :
    Table.wf c.log = true ∧ Table.wf c.alog = true ∧ Table.wf c.genpoly = true := by
  obtain ⟨-, log, alog, -, rfl⟩ := initResult_eq_ok h
  simp only [configurationOf, Table.wf_ofEntries, and_self]

/-! ## Every operation on the state keeps the invariant -/

namespace State.Inv

variable (hs : s.Inv)
include hs

theorem take (rest : List BusRequest) : (s.take rest).Inv := hs

theorem respond (v : Word) : (s.respond v).Inv := hs

theorem writeParam (r : ParamReg) (v : Half) : (s.writeParam r v).Inv := hs

theorem setErr (c : ErrCode) : (s.setErr c).Inv := by
  obtain ⟨hmem, -, hcfg⟩ := hs
  exact ⟨hmem, ErrCode.code_le c, hcfg⟩

theorem writeData (i v : Byte) : (s.writeData i v).Inv := by
  obtain ⟨⟨hdata, hrest⟩, herr, hcfg⟩ := hs
  exact ⟨⟨Memory.wf_write _ _ _ i.isLt hdata, hrest⟩, herr, hcfg⟩

theorem writeParity (j v : Byte) : (s.writeParity j v).Inv := by
  obtain ⟨⟨hdata, hparity, htables⟩, herr, hcfg⟩ := hs
  exact ⟨⟨hdata, Memory.wf_write _ _ _ j.isLt hparity, htables⟩, herr, hcfg⟩

theorem writeParityAll {p : List Byte} (hp : p.length ≤ 256) : (s.writeParityAll p).Inv := by
  obtain ⟨⟨hdata, hparity, htables⟩, herr, hcfg⟩ := hs
  exact ⟨⟨hdata, Memory.wf_writeList _ _ _ (by omega) hparity, htables⟩, herr, hcfg⟩

/-- The configuration INIT commits is the one its own mirrors give back. -/
theorem commit {c : Configuration} (hc : initResult s.params = .ok c) : (s.commit c).Inv := by
  obtain ⟨⟨hdata, hparity, -⟩, -, -⟩ := hs
  refine ⟨⟨hdata, hparity, wf_tables_of_initResult hc⟩, ErrCode.code_le .none, ?_⟩
  show initResult (mirroredParams c.cfg) = .ok c
  rw [mirroredParams_of_initResult hc, hc]

/-- Every effect of an instruction keeps the invariant. -/
theorem effect {i : Instr} (h : Effect s i t) : t.Inv := by
  cases h with
  | nop | wrIgnored => exact hs
  | initFailed e => exact hs.setErr e
  | initCommitted c hc => exact hs.commit hc
  | encodeWithoutRoots => exact hs.setErr .none
  | encoded ds _ hn _ =>
    have hlen := length_encodeRun s.encoderTables s.cfg.nroots.toNat ds (by omega)
    exact (hs.writeParityAll (by have := s.cfg.nroots.isLt; omega)).setErr .none
  | rsvdCmd3 | rsvdCmd4to7 | rsvdCmd8to15 => exact hs.setErr .illegalCommand
  | wrParam a v r => exact hs.writeParam r _
  | wrData a v i => exact hs.writeData i _
  | wrParity a v j => exact hs.writeParity j _
  | rd a v => exact hs.respond v

/-- While VALID = 1 the configuration is what INIT computes from its own mirrors. -/
theorem initResult_mirroredParams (hv : s.status.valid = true) :
    initResult (mirroredParams s.cfg) = .ok s.configuration := by
  obtain ⟨-, -, hcfg⟩ := hs
  rwa [State.ConfigOk, if_pos hv] at hcfg

end State.Inv

/-! ## The fields of a configuration that INIT computes -/

section Mirrors

variable (c : ActiveConfig)

@[simp] theorem mirroredParams_symw_toNat : (mirroredParams c).symw.toNat = c.m.toNat :=
  BitVec.toNat_setWidth_of_le (by decide)

@[simp] theorem mirroredParams_poly : (mirroredParams c).poly = c.poly := rfl

@[simp] theorem mirroredParams_fcr_toNat : (mirroredParams c).fcr.toNat = c.fcr.toNat :=
  BitVec.toNat_setWidth_of_le (by decide)

@[simp] theorem mirroredParams_prim_toNat : (mirroredParams c).prim.toNat = c.prim.toNat :=
  BitVec.toNat_setWidth_of_le (by decide)

@[simp] theorem mirroredParams_nroots_toNat : (mirroredParams c).nroots.toNat = c.nroots.toNat :=
  BitVec.toNat_setWidth_of_le (by decide)

@[simp] theorem mirroredParams_pad_toNat : (mirroredParams c).pad.toNat = c.pad.toNat :=
  BitVec.toNat_setWidth_of_le (by decide)

@[simp] theorem mirroredParams_nn : (mirroredParams c).nn = 2 ^ c.m.toNat - 1 := by
  rw [Params.nn, mirroredParams_symw_toNat, blockLength]

end Mirrors

@[simp] theorem State.configuration_cfg (s : State) : s.configuration.cfg = s.cfg := rfl

/-- cfg.nn and cfg.k as numbers: neither is cut by its 8-bit field. -/
theorem nn_k_of_initResult {p : Params} {c : Configuration} (h : initResult p = .ok c) :
    c.cfg.nn.toNat = p.nn ∧ c.cfg.k.toNat = p.k := by
  obtain ⟨hr, log, alog, -, rfl⟩ := initResult_eq_ok h
  obtain ⟨-, hnn⟩ := Params.nn_bounds hr
  have hk : p.k ≤ p.nn := by unfold Params.k; omega
  simp only [configurationOf, BitVec.toNat_ofNat]
  exact ⟨Nat.mod_eq_of_lt (by omega), Nat.mod_eq_of_lt (by omega)⟩

/-- The polynomial of a configuration that INIT computes is primitive. -/
theorem primitive_of_initResult {p : Params} {c : Configuration} (h : initResult p = .ok c) :
    Reference.Primitive p.symw.toNat p.poly.toNat := by
  obtain ⟨⟨⟨hm, -⟩, -⟩, log, alog, hb, -⟩ := initResult_eq_ok h
  exact (buildField_isSome_iff_primitive _ hm).mp (Option.isSome_iff_exists.mpr ⟨_, hb⟩)

/-- The block of parameters in range holds at least one data symbol, the roots and the padding. -/
theorem Params.k_bounds {p : Params} (h : Reference.InRange p) :
    1 ≤ p.k ∧ p.k + p.nroots.toNat + p.pad.toNat = p.nn := by
  obtain ⟨hnn, -⟩ := Params.nn_bounds h
  obtain ⟨-, -, -, hnroots, hpad⟩ := h
  unfold Params.k
  unfold Params.nn blockLength at hnn ⊢
  omega

end Sys2Proof.Machine

/-! ## The obligations -/

namespace Sys2Proof

open Sys2Proof.Machine

/-- Settles O46: a step is idle or has one effect on the state without its oldest request, and each effect
keeps the invariant; the case with content is a commit, whose mirrors show the parameters it came from. -/
theorem everyStepKeepsTheInvariant : Obligations.EveryStepKeepsTheInvariant := by
  intro s t hs h
  obtain ⟨-, rfl | ⟨i, rest, heff⟩⟩ := step_next_cases h
  · exact hs
  · exact (hs.take rest).effect heff

/-- Settles O4: no effect touches the fault field, and a faulted state is stuck. -/
theorem aFaultIsRecordedAndSticky : Obligations.AFaultIsRecordedAndSticky := by
  refine ⟨rfl, fun s r _ h => ?_, fun s t h => ?_, fun s r hf => ?_⟩
  · rw [advance, h]
    rfl
  · obtain ⟨hf, ht⟩ := step_next_cases h
    have hadv : advance s = t := by rw [advance, h, State.after_next]
    obtain rfl | ⟨i, rest, heff⟩ := ht
    · exact ⟨hf, hf, hadv⟩
    · exact ⟨hf, heff.fault_eq.trans hf, hadv⟩
  · have hstep : step s = .fault r := by rw [step, nextEvent_faulted s r hf]; rfl
    refine ⟨hstep, ?_⟩
    rw [advance, hstep, State.after_fault, State.recordFault, ← hf]

/-- Settles O15, from the address of each parameter register and the read of a register just written. -/
theorem aParameterRegisterReadsBackAsWritten : Obligations.AParameterRegisterReadsBackAsWritten := by
  intro s r v
  have htarget : targetOf (Reference.paramWaddr r) = .param r := by
    rw [targetOf_eq_param_iff]
    cases r <;> rfl
  have hanswer : zext32 (paramOperand v) = BitVec.ofNat 32 (v.toNat % 2 ^ 16) := by
    apply BitVec.eq_of_toNat_eq
    simp [zext32, paramOperand]
  refine ⟨s.writeParam r (paramOperand v), ?_, ?_, fun r' hr' => ?_, ?_⟩
  · simp only [exec, execWr, busWrite, htarget]
  · rw [State.writeParam_params, Params.field_withField, if_pos rfl, paramOperand]
  · rw [State.writeParam_params, Params.field_withField, if_neg hr']
  · simp only [exec, execRd, busRead, htarget, State.writeParam_params, Params.field_withField,
      if_pos, hanswer, State.respond]

/-- Settles O48: a valid configuration is what INIT computes from its mirrors, so they passed the range
checks and the polynomial was accepted. -/
theorem aValidConfigurationIsInRange : Obligations.AValidConfigurationIsInRange := by
  intro s hs hv
  have hinit := hs.initResult_mirroredParams hv
  obtain ⟨hr, -⟩ := initResult_eq_ok hinit
  have hprimitive := primitive_of_initResult hinit
  obtain ⟨hnn, hk⟩ := nn_k_of_initResult hinit
  obtain ⟨hk1, hsum⟩ := Params.k_bounds hr
  obtain ⟨⟨hm1, hm8⟩, hfcr, ⟨hprim1, hprim⟩, -⟩ := hr
  simp only [mirroredParams_symw_toNat, mirroredParams_poly, mirroredParams_fcr_toNat,
    mirroredParams_prim_toNat, mirroredParams_nroots_toNat, mirroredParams_pad_toNat,
    mirroredParams_nn, State.configuration_cfg] at *
  exact ⟨hm1, hm8, hnn, by omega, hprim1, by omega, by omega, by omega, by omega, hprimitive⟩

/-- Settles O50: of all effects only INIT's commit writes the configuration or VALID. -/
theorem onlyASuccessfulInitChangesTheConfiguration :
    Obligations.OnlyASuccessfulInitChangesTheConfiguration := by
  intro i s t hwf h
  cases effect_of_exec hwf h with
  | initCommitted c => exact .inr ⟨rfl, rfl, rfl⟩
  | _ => exact .inl ⟨rfl, rfl, rfl, rfl, rfl, rfl⟩

/-- Settles O51: each register and buffer is written by its own effects, at the addresses rule R31 gives. -/
theorem eachRegisterAndBufferHasItsOwnWriters : Obligations.EachRegisterAndBufferHasItsOwnWriters := by
  intro i s t hwf h
  have heff := effect_of_exec hwf h
  exact ⟨heff.params_eq_or, heff.data_eq_or, heff.parity_eq_or, heff.response_eq_or, heff.fault_eq,
    heff.pending_eq⟩

end Sys2Proof

/-! # Proofs: the memory family (20_memory.md) -/

namespace Sys2Proof.Machine

variable {s : State} {rest : List BusRequest}

/-! ## A step by what is oldest in the queue (rules R33 and R34) -/

theorem step_idle (hf : s.fault = none) (hp : s.pending = []) : step s = .next s := by
  rw [step, nextEvent_idle s hf hp]

theorem step_word {w : TWord} (hf : s.fault = none) (hp : s.pending = .word w :: rest) :
    step s = exec (decodeWord w) (s.take rest) := by
  rw [step, nextEvent_word s w rest hf hp]

/-- A request that has a transaction word steps as that word would in its place. -/
theorem step_eq_step_word {q : BusRequest} {w : TWord} (hf : s.fault = none)
    (hp : s.pending = q :: rest) (hq : q.toWord = .ok w) :
    step s = step { s with pending := .word w :: rest } := by
  have hnext : nextEvent s = .issued (decodeWord w) (s.take rest) := by
    simp only [nextEvent, hf, hp, hq]
  rw [step, hnext, step_word (s := { s with pending := .word w :: rest }) hf rfl]
  rfl

theorem step_refused {q : BusRequest} {r : Fault} (hf : s.fault = none) (hp : s.pending = q :: rest)
    (hq : q.toWord = .error r) : step s = .fault r := by
  simp only [step, nextEvent, hf, hp, hq, raiseFault]

/-! ## The transaction word of a byte addressed request (rules R30, R34 and R37) -/

theorem toNat_ofFields (we : Bool) (a : WAddr) (v : Word) :
    (TWord.ofFields we a v).toNat = we.toNat * 2 ^ 43 + a.toNat * 2 ^ 32 + v.toNat := by
  have hlow : a.toNat <<< 32 + v.toNat < 2 ^ (11 + 32) := by rw [Nat.shiftLeft_eq]; omega
  rw [TWord.ofFields, BitVec.toNat_append, BitVec.toNat_append, BitVec.toNat_ofBool,
    ← Nat.shiftLeft_add_eq_or_of_lt v.isLt, ← Nat.shiftLeft_add_eq_or_of_lt hlow,
    Nat.shiftLeft_eq, Nat.shiftLeft_eq, Nat.add_assoc]

theorem ofFields_eq_ofNat (we : Bool) (a : WAddr) (v : Word) :
    TWord.ofFields we a v = BitVec.ofNat 44 (we.toNat * 2 ^ 43 + a.toNat * 2 ^ 32 + v.toNat) := by
  rw [← toNat_ofFields, BitVec.ofNat_toNat, BitVec.setWidth_eq]

theorem toNat_wordAddrOf (addr : ByteAddr) : (wordAddrOf addr).toNat = addr.toNat / 4 := by
  rw [wordAddrOf, BitVec.extractLsb'_toNat, Nat.shiftRight_eq_div_pow, Nat.mod_eq_of_lt (by omega)]

theorem alignedWord_iff (addr : ByteAddr) (size : Nat) :
    alignedWord addr size = true ↔ addr.toNat % 4 = 0 ∧ size = 4 := by
  simp only [alignedWord, Bool.and_eq_true, decide_eq_true_eq]

section Aligned

variable {addr : ByteAddr} {size : Nat}

theorem BusRequest.toWord_byteRead (h : alignedWord addr size = true) :
    (BusRequest.byteRead addr size).toWord = .ok (BitVec.ofNat 44 (addr.toNat / 4 * 2 ^ 32)) := by
  rw [BusRequest.toWord, if_pos h, ofFields_eq_ofNat, toNat_wordAddrOf]
  simp

theorem BusRequest.toWord_byteWrite (v : Word) (h : alignedWord addr size = true) :
    (BusRequest.byteWrite addr size v).toWord =
      .ok (BitVec.ofNat 44 (2 ^ 43 + addr.toNat / 4 * 2 ^ 32 + v.toNat)) := by
  rw [BusRequest.toWord, if_pos h, ofFields_eq_ofNat, toNat_wordAddrOf, Bool.toNat_true,
    Nat.one_mul]

end Aligned

/-! ## Repeating an access (rule R34) -/

/-- The answer of an earlier read is no input of a read. -/
theorem busRead_respond (s : State) (v : Word) (a : WAddr) : busRead (s.respond v) a = busRead s a := rfl

/-- The second of two writes to an index decides its cell, canonical list or not. -/
theorem insertCell_insertCell_same (m : List Host.Cell) (a : Nat) (v w : Byte) :
    insertCell (insertCell m a w) a v = insertCell m a v := by
  induction m with
  | nil => simp [insertCell]
  | cons c m ih =>
    obtain ⟨b, u⟩ := c
    by_cases hlt : a < b
    · simp [insertCell, hlt]
    · by_cases heq : a = b
      · simp [insertCell, heq]
      · simp [insertCell, hlt, heq, ih]

theorem State.writeData_writeData_same (s : State) (i v w : Byte) :
    (s.writeData i w).writeData i v = s.writeData i v := by
  simp only [State.writeData, Memory.write, insertCell_insertCell_same]

theorem State.writeParity_writeParity_same (s : State) (j v w : Byte) :
    (s.writeParity j w).writeParity j v = s.writeParity j v := by
  simp only [State.writeParity, Memory.write, insertCell_insertCell_same]

theorem State.writeParam_writeParam_same (s : State) (r : ParamReg) (v w : Half) :
    (s.writeParam r w).writeParam r v = s.writeParam r v := by
  cases r <;> rfl

/-- A completed read leaves a state in which it answers the same. -/
theorem execRd_repeat {a : WAddr} {t : State} (h : execRd a s = .next t) : execRd a t = .next t := by
  cases effect_of_execRd h with
  | rd _ v hv =>
    simp only [execRd, busRead_respond, hv]
    rfl

/-- A completed write away from CMD leaves a state in which it stores what is there. -/
theorem execWr_repeat {a : WAddr} {v : Word} {t : State} (ha : a ≠ 0) (h : execWr a v s = .next t) :
    execWr a v t = .next t := by
  cases effect_of_execWr ha h with
  | wrParam _ _ r ht => simp only [execWr, busWrite, ht, State.writeParam_writeParam_same]
  | wrData _ _ i ht => simp only [execWr, busWrite, ht, State.writeData_writeData_same]
  | wrParity _ _ j ht => simp only [execWr, busWrite, ht, State.writeParity_writeParity_same]
  | wrIgnored => exact h

end Sys2Proof.Machine

/-! ## The obligations of the memory family -/

namespace Sys2Proof

open Sys2Proof.Machine

/-- Settles O2: what the bus does next is the decoded word on the state without its request, or nothing. -/
theorem stepRunsTheDecodedTransaction : Obligations.StepRunsTheDecodedTransaction :=
  ⟨fun _ _ _ hf hp => step_word hf hp, fun _ hf hp => step_idle hf hp⟩

/-- Settles O3: an aligned request has the word with its three fields, every other one has none. -/
theorem byteRequestsAreWordAccessesOrRefused : Obligations.ByteRequestsAreWordAccessesOrRefused := by
  intro s addr size v rest hf
  refine ⟨fun haligned hsize => ?_, fun hno hp => ?_⟩
  · have hword := (alignedWord_iff addr size).mpr ⟨haligned, hsize⟩
    exact ⟨fun hp => step_eq_step_word hf hp (BusRequest.toWord_byteRead hword),
      fun hp => step_eq_step_word hf hp (BusRequest.toWord_byteWrite v hword)⟩
  · have hnot : ¬alignedWord addr size = true := mt (alignedWord_iff addr size).mp hno
    obtain hp | hp := hp
    · exact step_refused hf hp (if_neg hnot)
    · exact step_refused hf hp (if_neg hnot)

/-- Settles O16: a target that stores lies at CMD, P.*, DATA or PARITY, so none of these addresses has one. -/
theorem writesElsewhereAreIgnored : Obligations.WritesElsewhereAreIgnored := by
  intro s a v ha hrange
  obtain ⟨ht, -⟩ | ⟨r, ht, -⟩ | ⟨i, ht, -⟩ | ⟨j, ht, -⟩ | hnext := busWrite_cases a v s
  · exact absurd ((targetOf_eq_cmd_iff a).mp ht) ha
  · have hbounds := r.waddr_bounds
    rw [← (targetOf_eq_param_iff a r).mp ht] at hbounds
    omega
  · obtain ⟨hlo, hhi, -⟩ := targetOf_eq_data ht
    omega
  · obtain ⟨hlo, hhi, -⟩ := targetOf_eq_parity ht
    omega
  · exact hnext

/-- Settles O17: a read does not look at the answer it leaves, and a write stores the same value again. -/
theorem repeatedAccessesAreIdempotent : Obligations.RepeatedAccessesAreIdempotent :=
  ⟨fun _ _ _ h => execRd_repeat h, fun _ _ _ _ ha h => execWr_repeat ha h⟩

end Sys2Proof

/-! # Proofs: the encoding family (30_encoding.md) -/

namespace Sys2Proof

open Sys2Proof.Machine
open Sys2Proof.Laws.WriteEnable (we_ofFields)

/-! ## The three fields of a transaction word (rule R37) -/

@[simp] theorem waddr_ofFields (we : Bool) (a : WAddr) (v : Word) :
    TWord.waddr (TWord.ofFields we a v) = a := by
  rw [TWord.waddr, TWord.ofFields, BitVec.extractLsb'_append_eq_of_add_le (by decide),
    BitVec.extractLsb'_append_eq_of_le (by decide), BitVec.extractLsb'_eq_self]

@[simp] theorem wdata_ofFields (we : Bool) (a : WAddr) (v : Word) :
    TWord.wdata (TWord.ofFields we a v) = v := by
  rw [TWord.wdata, TWord.ofFields, BitVec.extractLsb'_append_eq_of_add_le (by decide),
    BitVec.extractLsb'_append_eq_of_add_le (by decide), BitVec.extractLsb'_eq_self]

/-- A transaction word is its three fields. -/
theorem ofFields_fields (t : TWord) : TWord.ofFields t.we t.waddr t.wdata = t := by
  apply BitVec.eq_of_toNat_eq
  rw [toNat_ofFields, TWord.we, TWord.waddr, TWord.wdata, BitVec.getLsbD, Nat.toNat_testBit,
    BitVec.extractLsb'_toNat, BitVec.extractLsb'_toNat, Nat.shiftRight_eq_div_pow, Nat.shiftRight_zero]
  have := t.isLt
  omega

/-- A mask acts on each field for itself. -/
theorem ofFields_and_ofFields (we we' : Bool) (a a' : WAddr) (v v' : Word) :
    TWord.ofFields we a v &&& TWord.ofFields we' a' v' =
      TWord.ofFields (we && we') (a &&& a') (v &&& v') := by
  rw [TWord.ofFields, TWord.ofFields, BitVec.and_append, BitVec.and_append, BitVec.ofBool_and_ofBool,
    TWord.ofFields]

/-- Masking a word masks its fields. -/
theorem and_ofFields (t : TWord) (we : Bool) (a : WAddr) (v : Word) :
    t &&& TWord.ofFields we a v = TWord.ofFields (t.we && we) (t.waddr &&& a) (t.wdata &&& v) := by
  rw [← ofFields_and_ofFields, ofFields_fields]

/-! ## Commands (rule R36) -/

/-- OP is T[3:0]. -/
theorem commandOp_wdata (t : TWord) : commandOp t.wdata = t.extractLsb' 0 4 := by
  ext i hi
  simp [commandOp, TWord.wdata]

@[simp] theorem commandOp_setWidth (op : BitVec 4) : commandOp (op.setWidth 32) = op := by
  revert op
  decide

/-- The bits a command keeps of its WDATA are OP. -/
theorem setWidth_commandOp (v : Word) : (commandOp v).setWidth 32 = v &&& 0xF := by
  apply BitVec.eq_of_toNat_eq
  rw [commandOp, BitVec.toNat_setWidth_of_le (by decide), BitVec.extractLsb'_toNat, Nat.shiftRight_zero,
    BitVec.toNat_and]
  exact (Nat.and_two_pow_sub_one_eq_mod v.toNat 4).symm

theorem decodeCommand_eq_commandInstr (op : BitVec 4) :
    decodeCommand op = Reference.commandInstr op := by
  revert op
  decide

theorem decodeCommand_4to7 {op : BitVec 4} (hlo : 4 ≤ op.toNat) (hhi : op.toNat ≤ 7) :
    decodeCommand op = .rsvdCmd4to7 op := by
  rw [decodeCommand, if_neg (by omega), if_neg (by omega), if_neg (by omega), if_neg (by omega), if_pos hhi]

theorem decodeCommand_8to15 {op : BitVec 4} (hlo : 8 ≤ op.toNat) :
    decodeCommand op = .rsvdCmd8to15 op := by
  rw [decodeCommand, if_neg (by omega), if_neg (by omega), if_neg (by omega), if_neg (by omega),
    if_neg (by omega)]

/-- Every command code, reserved or not, is encoded in its OP field. -/
theorem encodeInstr_decodeCommand (op : BitVec 4) : encodeInstr (decodeCommand op) = encodeCommand op := by
  revert op
  decide

/-! ## The decoder in the priority order of rule R37 -/

section Decoder

variable {t : TWord}

theorem decodeWord_of_read (hwe : t.we = false) : decodeWord t = .rd t.waddr := if_pos hwe

theorem decodeWord_of_command (hwe : t.we = true) (ha : t.waddr = 0) :
    decodeWord t = decodeCommand (commandOp t.wdata) := by
  rw [decodeWord, if_neg (by simp [hwe]), if_pos ha]

theorem decodeWord_of_write (hwe : t.we = true) (ha : t.waddr ≠ 0) :
    decodeWord t = .wr t.waddr t.wdata := by
  rw [decodeWord, if_neg (by simp [hwe]), if_neg ha]

end Decoder

theorem decodeWord_ofFields_read (a : WAddr) (v : Word) : decodeWord (TWord.ofFields false a v) = .rd a := by
  rw [decodeWord_of_read (we_ofFields _ _ _), waddr_ofFields]

theorem decodeWord_ofFields_command (v : Word) :
    decodeWord (TWord.ofFields true 0 v) = decodeCommand (commandOp v) := by
  rw [decodeWord_of_command (we_ofFields _ _ _) (waddr_ofFields _ _ _), wdata_ofFields]

theorem decodeWord_ofFields_write {a : WAddr} (ha : a ≠ 0) (v : Word) :
    decodeWord (TWord.ofFields true a v) = .wr a v := by
  rw [decodeWord_of_write (we_ofFields _ _ _) (by rwa [waddr_ofFields]), waddr_ofFields, wdata_ofFields]

theorem decodeWord_encodeCommand (op : BitVec 4) : decodeWord (encodeCommand op) = decodeCommand op := by
  rw [encodeCommand, decodeWord_ofFields_command, commandOp_setWidth]

/-! ## What the masks of the opcode table keep (rules R36 and R37) -/

/-- WE alone. -/
theorem and_weMask (t : TWord) : t &&& 0x80000000000#44 = TWord.ofFields t.we 0 0 := by
  rw [show 0x80000000000#44 = TWord.ofFields true 0#11 0#32 by decide, and_ofFields, Bool.and_true,
    BitVec.and_zero, BitVec.and_zero]
  rfl

/-- Of a read, everything but WDATA. -/
theorem and_readMask {t : TWord} (hwe : t.we = false) :
    t &&& 0xFFF00000000#44 = TWord.ofFields false t.waddr 0 := by
  rw [show 0xFFF00000000#44 = TWord.ofFields true (BitVec.allOnes 11) 0#32 by decide, and_ofFields,
    hwe, Bool.and_true, BitVec.and_allOnes, BitVec.and_zero]
  rfl

/-- Of a CMD write, everything but the bits above OP. -/
theorem and_commandMask {t : TWord} (hwe : t.we = true) (ha : t.waddr = 0) :
    t &&& 0xFFF0000000F#44 = encodeCommand (commandOp t.wdata) := by
  rw [show 0xFFF0000000F#44 = TWord.ofFields true (BitVec.allOnes 11) 0xF by decide, and_ofFields,
    hwe, ha, ← setWidth_commandOp, Bool.and_true, BitVec.and_allOnes, encodeCommand]

/-! ## The opcode table -/

/-- The first six rows are the CMD writes: their masks fix WE = 1 and WADDR = 0x000. -/
theorem commandRows_fix_we_waddr : ∀ r ∈ opcodeTable.take 6,
    TWord.we r.mask = true ∧ TWord.waddr r.mask = BitVec.allOnes 11 ∧
      TWord.we r.pattern = true ∧ TWord.waddr r.pattern = 0 := by
  decide

/-- A word that matches a CMD row is a CMD write. -/
theorem command_of_matches {r : OpcodeRow} (hr : r ∈ opcodeTable.take 6) {t : TWord}
    (h : r.matches t = true) : t.we = true ∧ t.waddr = 0 := by
  obtain ⟨hmwe, hmaddr, hpwe, hpaddr⟩ := commandRows_fix_we_waddr r hr
  have hmatch : t &&& r.mask = r.pattern := beq_iff_eq.mp h
  rw [← ofFields_fields r.mask, hmwe, hmaddr, and_ofFields, Bool.and_true, BitVec.and_allOnes] at hmatch
  rw [← hmatch, we_ofFields] at hpwe
  rw [← hmatch, waddr_ofFields] at hpaddr
  exact ⟨hpwe, hpaddr⟩

/-- Any other word is named by the last two rows, by its WE. -/
theorem tableMnemonic_of_not_command {t : TWord} (h : ¬(t.we = true ∧ t.waddr = 0)) :
    tableMnemonic t = some (if t.we = true then "WR" else "RD") := by
  have hnone : (opcodeTable.take 6).find? (fun r => r.matches t) = none :=
    List.find?_eq_none.mpr fun r hr hm => h (command_of_matches hr hm)
  have htable : opcodeTable = opcodeTable.take 6 ++ opcodeTable.drop 6 := rfl
  rw [tableMnemonic, htable, List.find?_append, hnone, Option.none_or]
  simp only [opcodeTable, List.drop, OpcodeRow.matches, List.find?, and_weMask]
  cases t.we <;> rfl

/-- No row looks at the bits of a CMD write above OP. -/
theorem matches_and_commandMask {r : OpcodeRow} (hr : r ∈ opcodeTable) (t : TWord) :
    r.matches (t &&& 0xFFF0000000F#44) = r.matches t := by
  have hmask : ∀ r ∈ opcodeTable, 0xFFF0000000F#44 &&& r.mask = r.mask := by decide
  rw [OpcodeRow.matches, OpcodeRow.matches, BitVec.and_assoc, hmask r hr]

/-- The bits of a CMD write above OP do not change the row. -/
theorem tableMnemonic_and_commandMask (t : TWord) :
    tableMnemonic (t &&& 0xFFF0000000F#44) = tableMnemonic t := by
  rw [tableMnemonic, List.find?_congr fun r hr => matches_and_commandMask hr t, tableMnemonic]

theorem tableMnemonic_encodeCommand (op : BitVec 4) :
    tableMnemonic (encodeCommand op) = some (decodeCommand op).mnemonic := by
  revert op
  decide

/-! ## Lines of host assembly (rule R40) -/

theorem dataWaddr_ofNat (i : Nat) (h : i < 256) :
    dataWaddr (BitVec.ofNat 8 i) = BitVec.ofNat 11 (0x400 + i) := by
  apply BitVec.eq_of_toNat_eq
  simp [dataWaddr]
  omega

theorem parityWaddr_ofNat (j : Nat) (h : j < 256) :
    parityWaddr (BitVec.ofNat 8 j) = BitVec.ofNat 11 (0x500 + j) := by
  apply BitVec.eq_of_toNat_eq
  simp [parityWaddr]
  omega

theorem dataWaddr_ne_zero (i : Byte) : dataWaddr i ≠ 0 := by
  revert i
  decide +kernel

theorem paramReg_waddr_ne_zero (r : ParamReg) : r.waddr ≠ 0 := by
  cases r <;> decide

theorem decodeWord_asmWr {a : WAddr} (ha : a ≠ 0) (v : Word) : decodeWord (asmWr a v) = .wr a v :=
  decodeWord_ofFields_write ha v

theorem decodeWord_asmWr_cmd (v : Word) : decodeWord (asmWr 0 v) = decodeCommand (commandOp v) :=
  decodeWord_ofFields_command v

theorem decodeWord_asmRd (a : WAddr) : decodeWord (asmRd a) = .rd a := decodeWord_ofFields_read a 0

theorem length_expand_load (vs : List Word) : (AsmLine.load vs).expand.length = vs.length := by
  simp [AsmLine.expand]

theorem length_expand_dump (n : Nat) : (AsmLine.dump n).expand.length = n := by
  simp [AsmLine.expand]

/-- Element i of a `load` line is the write of DATA[i]. -/
theorem decodeWord_expand_load (vs : List Word) (i : Nat) (h : i < vs.length) (hlen : vs.length ≤ 256) :
    ((AsmLine.load vs).expand.map decodeWord)[i]? = some (.wr (BitVec.ofNat 11 (0x400 + i)) vs[i]) := by
  have hword : (AsmLine.load vs).expand[i]? = some (asmWr (dataWaddr (BitVec.ofNat 8 i)) vs[i]) := by
    simp [AsmLine.expand, h]
  rw [List.getElem?_map, hword, Option.map_some, decodeWord_asmWr (dataWaddr_ne_zero _),
    dataWaddr_ofNat i (by omega)]

/-- Element j of a `dump` line is the read of PARITY[j]. -/
theorem decodeWord_expand_dump (n j : Nat) (h : j < n) (hn : n ≤ 256) :
    ((AsmLine.dump n).expand.map decodeWord)[j]? = some (.rd (BitVec.ofNat 11 (0x500 + j))) := by
  have hword : (AsmLine.dump n).expand[j]? = some (asmRd (parityWaddr (BitVec.ofNat 8 j))) := by
    simp [AsmLine.expand, h]
  rw [List.getElem?_map, hword, Option.map_some, decodeWord_asmRd, parityWaddr_ofNat j (by omega)]

/-! ## The obligations of the encoding family -/

/-- Settles O6: each constructor's word has the fields it was built from, and a command's OP selects its row. -/
theorem decodingAnEncodedInstructionGivesItBack : Obligations.DecodingAnEncodedInstructionGivesItBack := by
  intro i hwf
  cases i with
  | nop => exact decodeWord_encodeCommand 0
  | init => exact decodeWord_encodeCommand 1
  | encode => exact decodeWord_encodeCommand 2
  | rsvdCmd3 => exact decodeWord_encodeCommand 3
  | rsvdCmd4to7 op =>
    obtain ⟨hlo, hhi⟩ := of_decide_eq_true hwf
    rw [encodeInstr, decodeWord_encodeCommand, decodeCommand_4to7 hlo hhi]
  | rsvdCmd8to15 op =>
    rw [encodeInstr, decodeWord_encodeCommand, decodeCommand_8to15 (of_decide_eq_true hwf)]
  | wr a v => exact decodeWord_ofFields_write (of_decide_eq_true hwf) v
  | rd a => exact decodeWord_ofFields_read a 0

/-- Settles O7, by the priority order of rule R37: the masks keep exactly the fields the encoder writes. -/
theorem encodingADecodedWordClearsOnlyIgnoredBits :
    Obligations.EncodingADecodedWordClearsOnlyIgnoredBits := by
  refine fun t => ⟨wf_decodeWord t, ?_⟩
  show _ = if t.we = false then _ else if t.waddr = 0 then _ else t
  cases hwe : t.we with
  | false => rw [if_pos rfl, decodeWord_of_read hwe, encodeInstr, and_readMask hwe]
  | true =>
    rw [if_neg (by decide)]
    by_cases ha : t.waddr = 0
    · rw [if_pos ha, decodeWord_of_command hwe ha, encodeInstr_decodeCommand, and_commandMask hwe ha]
    · rw [if_neg ha, decodeWord_of_write hwe ha, encodeInstr, ← hwe, ofFields_fields]

/-- Settles O8, from the decoder's three cases and the opcode map of rule R36. -/
theorem decodingFollowsThePriorityOrder : Obligations.DecodingFollowsThePriorityOrder := by
  refine fun t => ⟨fun hwe => decodeWord_of_read hwe, fun hwe ha => ?_,
    fun hwe ha => decodeWord_of_write hwe ha⟩
  have hcmd : decodeWord t = decodeCommand (t.extractLsb' 0 4) := by
    rw [decodeWord_of_command hwe ha, commandOp_wdata]
  rw [hcmd]
  refine ⟨fun h => ?_, fun h => ?_, fun h => ?_, fun h => ?_, decodeCommand_4to7, decodeCommand_8to15⟩ <;>
    simp [decodeCommand, h]

/-- Settles O9: a CMD write has the row of its OP, whatever its other bits; any other word is WR or RD. -/
theorem decodingFollowsTheOpcodeTable : Obligations.DecodingFollowsTheOpcodeTable := by
  intro t
  by_cases hcmd : t.we = true ∧ t.waddr = 0
  · obtain ⟨hwe, ha⟩ := hcmd
    rw [decodeWord_of_command hwe ha, ← tableMnemonic_and_commandMask, and_commandMask hwe ha,
      tableMnemonic_encodeCommand]
  · rw [tableMnemonic_of_not_command hcmd]
    cases hwe : t.we with
    | false => rw [decodeWord_of_read hwe]; rfl
    | true => rw [decodeWord_of_write hwe fun ha => hcmd ⟨hwe, ha⟩]; rfl

/-- Settles O10: each word of an expansion is a write or a read of the address its line names. -/
theorem assemblyLinesDecodeToTheirAccesses : Obligations.AssemblyLinesDecodeToTheirAccesses := by
  refine ⟨fun a v ha => ?_, fun v => ?_, fun a _ => ?_, ?_, ?_, ?_, fun m poly fcr prim nroots pad => ?_,
    length_expand_load, length_expand_dump, decodeWord_expand_load, decodeWord_expand_dump⟩
  · exact congrArg ([·]) (decodeWord_asmWr ha v)
  · exact congrArg ([·]) ((decodeWord_asmWr_cmd v).trans (decodeCommand_eq_commandInstr _))
  · exact congrArg ([·]) (decodeWord_asmRd a)
  · exact congrArg ([·]) (decodeWord_asmWr_cmd 0)
  · exact congrArg ([·]) (decodeWord_asmWr_cmd 1)
  · exact congrArg ([·]) (decodeWord_asmWr_cmd 2)
  · simp only [AsmLine.expand, List.map_cons, List.map_nil, decodeWord_asmWr (paramReg_waddr_ne_zero _)]
    rfl

/-- Settles O5, by running the decoder on the nine words. -/
theorem listedWordsDecodeAsListed : Obligations.ListedWordsDecodeAsListed := by
  unfold Obligations.ListedWordsDecodeAsListed
  decide

end Sys2Proof

/-! # Proofs: the field table family (40_field_tables.md) -/

namespace Sys2Proof.Machine

/-! ## ModReduce by folding (rule R41) -/

/-- Adding the bits from m on to the bits below them keeps the value modulo 2^m - 1. -/
theorem fold_mod (m y : Nat) :
    ((y >>> m) + (y &&& (2 ^ m - 1))) % (2 ^ m - 1) = y % (2 ^ m - 1) := by
  have hsplit : y = (2 ^ m - 1) * (y / 2 ^ m) + (y / 2 ^ m + y % 2 ^ m) := by
    rw [← Nat.add_assoc, ← Nat.succ_mul, Nat.succ_eq_add_one, Nat.sub_add_cancel (Nat.two_pow_pos m),
      Nat.div_add_mod]
  rw [Nat.shiftRight_eq_div_pow, Nat.and_two_pow_sub_one_eq_mod]
  conv_rhs => rw [hsplit, Nat.mul_add_mod]

theorem fold_le (m y : Nat) : (y >>> m) + (y &&& (2 ^ m - 1)) ≤ y := by
  rw [Nat.shiftRight_eq_div_pow, Nat.and_two_pow_sub_one_eq_mod]
  have hq : y / 2 ^ m ≤ 2 ^ m * (y / 2 ^ m) := Nat.le_mul_of_pos_left _ (Nat.two_pow_pos m)
  have hdiv := Nat.div_add_mod y (2 ^ m)
  omega

/-- Each pass takes nn off before it folds, so x passes are enough. -/
theorem foldReduce_eq_modReduce {m fuel x : Nat} (hm : 1 ≤ m) (hx : x ≤ fuel) :
    Reference.foldReduce m fuel x = modReduce (2 ^ m - 1) x := by
  have hnn : 1 < 2 ^ m := Nat.one_lt_two_pow (by omega)
  induction fuel generalizing x with
  | zero => rw [Nat.le_zero.mp hx, modReduce, Nat.zero_mod, Reference.foldReduce]
  | succ fuel ih =>
    rw [Reference.foldReduce]
    split
    · rw [modReduce, Nat.mod_eq_of_lt ‹_›]
    · have hle := fold_le m (x - (2 ^ m - 1))
      rw [ih (by omega), modReduce, modReduce, fold_mod, ← Nat.mod_eq_sub_mod (by omega)]

/-! ## Which bits of the polynomial the builder reads (rule R47) -/

theorem fieldShift_congr {m poly poly' : Nat} (h : poly % 2 ^ m = poly' % 2 ^ m) (v : Nat) :
    fieldShift m poly v = fieldShift m poly' v := by
  simp only [fieldShift, blockLength, Nat.and_two_pow_sub_one_eq_mod]
  split
  · rw [Nat.xor_mod_two_pow, h, ← Nat.xor_mod_two_pow]
  · rfl

theorem fieldIteration_congr {m poly poly' : Nat} (h : poly % 2 ^ m = poly' % 2 ^ m) :
    fieldIteration m poly = fieldIteration m poly' := by
  funext b i
  simp only [fieldIteration, fieldShift_congr h]

theorem buildField_congr {m poly poly' : Nat} (h : poly % 2 ^ m = poly' % 2 ^ m) :
    buildField m poly = buildField m poly' := by
  have hloop : fieldLoop m poly = fieldLoop m poly' := by
    rw [fieldLoop, fieldLoop, fieldIteration_congr h]
  rw [buildField, hloop, buildField]

/-! ## Multiplication by x, and the product as a sum of shifts -/

/-- Multiplication by x respects sums. -/
theorem fieldShift_xor (m poly v w : Nat) :
    fieldShift m poly (v ^^^ w) = fieldShift m poly v ^^^ fieldShift m poly w := by
  simp only [fieldShift, Nat.shiftLeft_xor_distrib, Nat.testBit_xor, ← Nat.and_xor_distrib_right]
  congr 1
  cases (v <<< 1).testBit m <;> cases (w <<< 1).testBit m <;>
    simp [Nat.xor_comm, Nat.xor_left_comm]

theorem shift_xor {m v w : Nat} (poly : Nat) (hv : v < 2 ^ m) (hw : w < 2 ^ m) :
    Reference.shift m poly (v ^^^ w) = Reference.shift m poly v ^^^ Reference.shift m poly w := by
  rw [← fieldShift_eq_shift poly (Nat.xor_lt_two_pow hv hw), ← fieldShift_eq_shift poly hv,
    ← fieldShift_eq_shift poly hw, fieldShift_xor]

@[simp] theorem shift_zero (m poly : Nat) : Reference.shift m poly 0 = 0 := by
  simp [Reference.shift]

theorem shift_iterate_lt {m a : Nat} (poly i : Nat) (ha : a < 2 ^ m) :
    (Reference.shift m poly)^[i] a < 2 ^ m := by
  cases i with
  | zero => exact ha
  | succ i => rw [Function.iterate_succ_apply']; exact Nat.mod_lt _ (Nat.two_pow_pos m)

/-- Below x^m the powers of x are the powers of two. -/
theorem power_eq_two_pow {m i : Nat} (poly : Nat) (hi : i < m) : Reference.power m poly i = 2 ^ i := by
  induction i with
  | zero => rfl
  | succ i ih =>
    have hlt : 2 ^ (i + 1) < 2 ^ m := Nat.pow_lt_pow_right (by omega) hi
    rw [power_succ, ih (by omega), Reference.shift, ← Nat.pow_succ', if_neg (by omega), Nat.xor_zero,
      Nat.mod_eq_of_lt hlt]

/-- The product by the low `n` bits of b: the partial sums of `Reference.product`. -/
def productPrefix (m poly a b n : Nat) : Nat :=
  (List.range n).foldl
    (fun acc i => if b.testBit i then acc ^^^ (Reference.shift m poly)^[i] a else acc) 0

theorem product_eq_productPrefix (m poly a b : Nat) :
    Reference.product m poly a b = productPrefix m poly a b m := rfl

@[simp] theorem productPrefix_zero (m poly a b : Nat) : productPrefix m poly a b 0 = 0 := rfl

theorem productPrefix_succ (m poly a b n : Nat) :
    productPrefix m poly a b (n + 1) =
      if b.testBit n then productPrefix m poly a b n ^^^ (Reference.shift m poly)^[n] a
      else productPrefix m poly a b n := by
  simp [productPrefix, List.range_succ]

theorem productPrefix_lt {m a : Nat} (poly b n : Nat) (ha : a < 2 ^ m) :
    productPrefix m poly a b n < 2 ^ m := by
  induction n with
  | zero => exact Nat.two_pow_pos m
  | succ n ih =>
    rw [productPrefix_succ]
    split
    · exact Nat.xor_lt_two_pow ih (shift_iterate_lt poly n ha)
    · exact ih

/-- A factor x moves out of the product. -/
theorem productPrefix_shift {m a : Nat} (poly b n : Nat) (ha : a < 2 ^ m) :
    productPrefix m poly (Reference.shift m poly a) b n =
      Reference.shift m poly (productPrefix m poly a b n) := by
  induction n with
  | zero => simp
  | succ n ih =>
    simp only [productPrefix_succ, ih, ← Function.iterate_succ_apply, Function.iterate_succ_apply']
    split
    · rw [shift_xor poly (productPrefix_lt poly b n ha) (shift_iterate_lt poly n ha)]
    · rfl

theorem mod_two_pow_succ (b n : Nat) :
    b % 2 ^ (n + 1) = if b.testBit n then b % 2 ^ n ^^^ 2 ^ n else b % 2 ^ n := by
  apply Nat.eq_of_testBit_eq
  intro i
  by_cases hi : i = n
  · subst hi
    split <;> simp_all [Nat.testBit_mod_two_pow, Nat.testBit_xor]
  · have hlt : i < n + 1 ↔ i < n := by omega
    split <;> simp [Nat.testBit_mod_two_pow, Nat.testBit_xor, Nat.testBit_two_pow_of_ne (Ne.symm hi), hlt]

theorem productPrefix_one {m n : Nat} (poly b : Nat) (hn : n ≤ m) :
    productPrefix m poly 1 b n = b % 2 ^ n := by
  induction n with
  | zero => simp [Nat.mod_one]
  | succ n ih =>
    have hpow : (Reference.shift m poly)^[n] 1 = 2 ^ n := power_eq_two_pow poly hn
    rw [productPrefix_succ, ih (by omega), hpow, mod_two_pow_succ]

/-- Multiplying b by x^i applies the shift i times. -/
theorem product_power {m b : Nat} (poly i : Nat) (hm : 1 ≤ m) (hb : b < 2 ^ m) :
    Reference.product m poly (Reference.power m poly i) b = (Reference.shift m poly)^[i] b := by
  induction i with
  | zero => exact (productPrefix_one poly b (Nat.le_refl m)).trans (Nat.mod_eq_of_lt hb)
  | succ i ih =>
    rw [power_succ, product_eq_productPrefix, productPrefix_shift poly b m (power_lt poly i hm),
      ← product_eq_productPrefix, ih, Function.iterate_succ_apply']

theorem product_power_power {m : Nat} (poly i j : Nat) (hm : 1 ≤ m) :
    Reference.product m poly (Reference.power m poly i) (Reference.power m poly j) =
      Reference.power m poly (i + j) := by
  rw [product_power poly i hm (power_lt poly j hm)]
  exact (Function.iterate_add_apply _ i j 1).symm

theorem product_zero_left (m poly b : Nat) : Reference.product m poly 0 b = 0 := by
  have hprefix : ∀ n, productPrefix m poly 0 b n = 0 := by
    intro n
    induction n with
    | zero => rfl
    | succ n ih => simp [productPrefix_succ, ih, Function.iterate_fixed (shift_zero m poly)]
  exact hprefix m

theorem product_zero_right (m poly a : Nat) : Reference.product m poly a 0 = 0 := by
  simp [Reference.product]

/-! ## The powers of x when the polynomial is primitive (rule R48) -/

section PrimitivePolynomial

variable {m poly : Nat} (hm : 1 ≤ m) (hp : Reference.Primitive m poly)
include hm hp

omit hm in
theorem power_mod (t : Nat) :
    Reference.power m poly (t % (2 ^ m - 1)) = Reference.power m poly t :=
  Function.IsPeriodicPt.iterate_mod_apply (f := Reference.shift m poly) hp.1 t

/-- First returning to 1 at nn is having nn as the least period. -/
theorem minimalPeriod_shift : Function.minimalPeriod (Reference.shift m poly) 1 = 2 ^ m - 1 := by
  obtain ⟨hreturn, hfirst⟩ := hp
  have hnn : 0 < 2 ^ m - 1 := Nat.sub_pos_of_lt (Nat.one_lt_two_pow (by omega))
  have hperiodic : Function.IsPeriodicPt (Reference.shift m poly) (2 ^ m - 1) 1 := hreturn
  refine (hperiodic.minimalPeriod_le hnn).antisymm (Nat.le_of_not_lt fun hlt => ?_)
  exact hfirst _ hlt (hperiodic.minimalPeriod_pos hnn) Function.iterate_minimalPeriod

theorem power_injOn : Set.InjOn (Reference.power m poly) (Set.Iio (2 ^ m - 1)) := by
  rw [← minimalPeriod_shift hm hp]
  exact Function.iterate_injOn_Iio_minimalPeriod

/-- From 0 the sequence would not return to 1. -/
theorem power_pos (t : Nat) : 0 < Reference.power m poly t := by
  have hnn : t % (2 ^ m - 1) < 2 ^ m - 1 :=
    Nat.mod_lt _ (Nat.sub_pos_of_lt (Nat.one_lt_two_pow (by omega)))
  rw [← power_mod hp t]
  generalize t % (2 ^ m - 1) = i at hnn
  refine Nat.pos_of_ne_zero fun hzero => ?_
  have hreturn : (Reference.shift m poly)^[2 ^ m - 1 - i] (Reference.power m poly i) = 1 := by
    rw [Reference.power, ← Function.iterate_add_apply, Nat.sub_add_cancel hnn.le]
    exact hp.1
  rw [hzero, Function.iterate_fixed (shift_zero m poly)] at hreturn
  cases hreturn

/-- The nn powers are distinct elements of 1 .. nn, so they are all of them. -/
theorem exists_power_eq {x : Nat} (hx : 1 ≤ x) (hx' : x ≤ 2 ^ m - 1) :
    ∃ i, i < 2 ^ m - 1 ∧ Reference.power m poly i = x := by
  have hmaps : Set.MapsTo (Reference.power m poly) (Finset.range (2 ^ m - 1))
      (Finset.Icc 1 (2 ^ m - 1)) := by
    intro i _
    exact Finset.mem_coe.mpr (Finset.mem_Icc.mpr
      ⟨power_pos hm hp i, Nat.le_sub_one_of_lt (power_lt poly i hm)⟩)
  have hinj : Set.InjOn (Reference.power m poly) (Finset.range (2 ^ m - 1)) := by
    rw [Finset.coe_range]
    exact power_injOn hm hp
  obtain ⟨i, hi, hix⟩ := Finset.surjOn_of_injOn_of_card_le _ hmaps hinj (by simp)
    (Finset.mem_coe.mpr (Finset.mem_Icc.mpr ⟨hx, hx'⟩))
  exact ⟨i, Finset.mem_range.mp (Finset.mem_coe.mp hi), hix⟩

end PrimitivePolynomial

/-! ## The tables in the course of the loop (rule R46) -/

/-- The n-th iteration of the loop writes ALOG at n and LOG at the n-th power. -/
theorem fieldPrefix_alog_succ {m : Nat} (poly n : Nat) (hm : 1 ≤ m) :
    (fieldPrefix m poly (n + 1)).alog =
      Table.put (fieldPrefix m poly n).alog n (BitVec.ofNat 8 (Reference.power m poly n)) := by
  rw [fieldPrefix_succ, ← fieldPrefix_sr poly n hm, fieldIteration]

theorem fieldPrefix_log_succ {m : Nat} (poly n : Nat) (hm : 1 ≤ m) :
    (fieldPrefix m poly (n + 1)).log =
      Table.put (fieldPrefix m poly n).log (Reference.power m poly n) (BitVec.ofNat 8 n) := by
  rw [fieldPrefix_succ, ← fieldPrefix_sr poly n hm, fieldIteration]

theorem entry_fieldPrefix_alog {m n i : Nat} (poly : Nat) (hm : 1 ≤ m) (hi : i < n) :
    Table.entry (fieldPrefix m poly n).alog i = BitVec.ofNat 8 (Reference.power m poly i) := by
  induction n with
  | zero => omega
  | succ n ih =>
    rw [fieldPrefix_alog_succ poly n hm, Table.entry_put]
    split
    · subst_vars; rfl
    · exact ih (by omega)

/-- An entry of LOG stays as no later power falls on it. -/
theorem entry_fieldPrefix_log {m poly n i : Nat} (hm : 1 ≤ m)
    (hinj : Set.InjOn (Reference.power m poly) (Set.Iio n)) (hi : i < n) :
    Table.entry (fieldPrefix m poly n).log (Reference.power m poly i) = BitVec.ofNat 8 i := by
  induction n with
  | zero => omega
  | succ n ih =>
    rw [fieldPrefix_log_succ poly n hm, Table.entry_put]
    split
    · rename_i heq
      rw [hinj hi (Nat.lt_succ_self n) heq]
    · rename_i hne
      have hin : i ≠ n := fun h => hne (h ▸ rfl)
      exact ih (hinj.mono (Set.Iio_subset_Iio (Nat.le_succ n))) (by omega)

/-! ## The tables of an accepted field (rule R48) -/

/-- A byte is as wide as a value below 2^m that the tables hold. -/
theorem toNat_ofNat_byte {m x : Nat} (hm : m ≤ 8) (hx : x < 2 ^ m) : (BitVec.ofNat 8 x).toNat = x := by
  have hpow : 2 ^ m ≤ 2 ^ 8 := Nat.pow_le_pow_right (by omega) hm
  rw [BitVec.toNat_ofNat, Nat.mod_eq_of_lt (by omega)]

theorem primitive_of_buildField {m poly : Nat} {t : Table × Table} (hm : 1 ≤ m)
    (h : buildField m poly = some t) : Reference.Primitive m poly :=
  (buildField_isSome_iff_primitive poly hm).mp (Option.isSome_of_eq_some h)

section AcceptedField

variable {m poly : Nat} {log alog : Table} (hm : 1 ≤ m) (h : buildField m poly = some (log, alog))
include hm h

theorem entry_alog {i : Nat} (hi : i < 2 ^ m - 1) :
    Table.entry alog i = BitVec.ofNat 8 (Reference.power m poly i) := by
  obtain ⟨-, -, htables⟩ := (buildField_eq_some_iff _ _ _).mp h
  obtain ⟨-, rfl⟩ := Prod.mk.inj htables
  rw [Table.entry_put, if_neg (by unfold blockLength; omega), fieldLoop_eq_fieldPrefix]
  exact entry_fieldPrefix_alog poly hm hi

omit hm in
theorem entry_alog_nn : Table.entry alog (2 ^ m - 1) = 0 := by
  obtain ⟨-, -, htables⟩ := (buildField_eq_some_iff _ _ _).mp h
  obtain ⟨-, rfl⟩ := Prod.mk.inj htables
  rw [Table.entry_put, blockLength, if_pos rfl]

omit hm in
theorem entry_log_zero : Table.entry log 0 = BitVec.ofNat 8 (2 ^ m - 1) := by
  obtain ⟨-, -, htables⟩ := (buildField_eq_some_iff _ _ _).mp h
  obtain ⟨rfl, -⟩ := Prod.mk.inj htables
  rw [Table.entry_put, if_pos rfl, blockLength]

theorem entry_log_power {i : Nat} (hi : i < 2 ^ m - 1) :
    Table.entry log (Reference.power m poly i) = BitVec.ofNat 8 i := by
  have hp := primitive_of_buildField hm h
  obtain ⟨-, -, htables⟩ := (buildField_eq_some_iff _ _ _).mp h
  obtain ⟨rfl, -⟩ := Prod.mk.inj htables
  rw [Table.entry_put, if_neg (power_pos hm hp i).ne', fieldLoop_eq_fieldPrefix]
  exact entry_fieldPrefix_log hm (power_injOn hm hp) hi

variable (hm8 : m ≤ 8)
include hm8

theorem toNat_entry_alog {i : Nat} (hi : i < 2 ^ m - 1) :
    (Table.entry alog i).toNat = Reference.power m poly i := by
  rw [entry_alog hm h hi, toNat_ofNat_byte hm8 (power_lt poly i hm)]

/-- The logarithm of any power is its exponent reduced modulo nn. -/
theorem toNat_entry_log_power (i : Nat) :
    (Table.entry log (Reference.power m poly i)).toNat = i % (2 ^ m - 1) := by
  have hlt : i % (2 ^ m - 1) < 2 ^ m - 1 :=
    Nat.mod_lt _ (Nat.sub_pos_of_lt (Nat.one_lt_two_pow (by omega)))
  rw [← power_mod (primitive_of_buildField hm h) i, entry_log_power hm h hlt,
    toNat_ofNat_byte hm8 (by omega)]

theorem toNat_logMul (la e : Nat) :
    (logMul (2 ^ m - 1) alog la e).toNat = Reference.power m poly (la + e) := by
  have hnn : 0 < 2 ^ m - 1 := Nat.sub_pos_of_lt (Nat.one_lt_two_pow (by omega))
  rw [logMul, modReduce, toNat_entry_alog hm h hm8 (Nat.mod_lt _ hnn),
    power_mod (primitive_of_buildField hm h)]

/-- Multiplying nonzero elements adds their exponents. -/
theorem toNat_gfmul_power {a b : Byte} {i j : Nat} (ha : a.toNat = Reference.power m poly i)
    (hb : b.toNat = Reference.power m poly j) :
    (gfmul (2 ^ m - 1) log alog a b).toNat = Reference.power m poly (i + j) := by
  have hp := primitive_of_buildField hm h
  have hne : ∀ (c : Byte) (t : Nat), c.toNat = Reference.power m poly t → c ≠ 0 := by
    rintro c t hc rfl
    exact (power_pos hm hp t).ne hc
  have hnonzero : ¬(a = 0 ∨ b = 0) := not_or.mpr ⟨hne a i ha, hne b j hb⟩
  rw [gfmul, if_neg hnonzero, ha, hb, toNat_logMul hm h hm8, toNat_entry_log_power hm h hm8,
    toNat_entry_log_power hm h hm8, ← power_mod hp, ← Nat.add_mod, power_mod hp]

/-- Multiplication by the tables is multiplication modulo p(x) (rule R44). -/
theorem toNat_gfmul {a b : Byte} (ha : a.toNat ≤ 2 ^ m - 1) (hb : b.toNat ≤ 2 ^ m - 1) :
    (gfmul (2 ^ m - 1) log alog a b).toNat = Reference.product m poly a.toNat b.toNat := by
  have hp := primitive_of_buildField hm h
  have hpos : ∀ c : Byte, c ≠ 0 → 1 ≤ c.toNat :=
    fun c hc => Nat.pos_of_ne_zero fun h0 => hc (BitVec.eq_of_toNat_eq h0)
  by_cases ha0 : a = 0
  · simp [gfmul, ha0, product_zero_left]
  by_cases hb0 : b = 0
  · simp [gfmul, hb0, product_zero_right]
  obtain ⟨i, -, hi⟩ := exists_power_eq hm hp (hpos a ha0) ha
  obtain ⟨j, -, hj⟩ := exists_power_eq hm hp (hpos b hb0) hb
  rw [toNat_gfmul_power hm h hm8 hi.symm hj.symm, ← hi, ← hj, product_power_power poly i j hm]

/-- LOG and ALOG are inverse on the nonzero elements. -/
theorem entry_alog_log {x : Nat} (hx : 1 ≤ x) (hx' : x ≤ 2 ^ m - 1) :
    Table.entry alog (Table.entry log x).toNat = BitVec.ofNat 8 x := by
  obtain ⟨i, hi, rfl⟩ := exists_power_eq hm (primitive_of_buildField hm h) hx hx'
  rw [toNat_entry_log_power hm h hm8, Nat.mod_eq_of_lt hi, entry_alog hm h hi]

/-- The sentinel nn is the logarithm of 0 alone. -/
theorem toNat_entry_log_le {x : Nat} (hx : x ≤ 2 ^ m - 1) :
    (Table.entry log x).toNat ≤ 2 ^ m - 1 ∧ ((Table.entry log x).toNat = 2 ^ m - 1 ↔ x = 0) := by
  obtain rfl | hpos := Nat.eq_zero_or_pos x
  · have hnn : 2 ^ m - 1 < 2 ^ m := Nat.sub_lt (Nat.two_pow_pos m) Nat.one_pos
    simp [entry_log_zero h, toNat_ofNat_byte hm8 hnn]
  · obtain ⟨i, hi, rfl⟩ := exists_power_eq hm (primitive_of_buildField hm h) hpos hx
    rw [toNat_entry_log_power hm h hm8, Nat.mod_eq_of_lt hi]
    omega

end AcceptedField

/-! ## INIT on a polynomial that is not primitive (rules R73 and R82) -/

theorem initResult_of_not_primitive {p : Params} (hr : Reference.InRange p)
    (hp : ¬ Reference.Primitive p.symw.toNat p.poly.toNat) :
    initResult p = .error .nonPrimitivePolynomial := by
  obtain ⟨-, hout⟩ | ⟨-, ⟨hx, -⟩ | ⟨log, alog, hb, -⟩⟩ := initResult_cases p
  · exact absurd ((rangeChecks_iff_inRange p).mpr hr) hout
  · exact hx
  · obtain ⟨⟨hm, -⟩, -⟩ := hr
    exact absurd (primitive_of_buildField hm hb) hp

end Sys2Proof.Machine

/-! ## The obligations of the field table family -/

namespace Sys2Proof

open Sys2Proof.Machine

/-- Settles O27: the loop's shift register runs through the sequence and notes an early return to 1. -/
theorem theFieldBuilderAcceptsExactlyPrimitivePolynomials :
    Obligations.TheFieldBuilderAcceptsExactlyPrimitivePolynomials :=
  fun _ poly hm _ => buildField_isSome_iff_primitive poly hm

/-- Settles O21: the range checks pass, and the builder accepts only primitive polynomials. -/
theorem initRejectsNonPrimitivePolynomials : Obligations.InitRejectsNonPrimitivePolynomials := by
  intro s hr hp
  have hinit : exec .init s = .next (s.setErr .nonPrimitivePolynomial) := by
    rw [exec, execInit, initResult_of_not_primitive hr hp]
  exact hinit

/-- Settles O28: the shift masks its result to m bits, and an XOR is masked bit by bit. -/
theorem onlyTheLowBitsOfThePolynomialMatter : Obligations.OnlyTheLowBitsOfThePolynomialMatter :=
  fun _ _ _ h => buildField_congr h

/-- Settles O29: iteration i of the loop writes the pair of i and x^i, and the powers are distinct and fill
1 .. nn because nn is the least period of the sequence. -/
theorem theTablesAreLogarithmAndAntilogarithm : Obligations.TheTablesAreLogarithmAndAntilogarithm := by
  intro m poly log alog hm hm8 h
  have hp := primitive_of_buildField hm h
  have hnn : 1 < 2 ^ m := Nat.one_lt_two_pow (by omega)
  refine ⟨fun i hi => toNat_entry_alog hm h hm8 hi, ?_, fun hm2 => ?_, fun i hi => ?_,
    fun i j hi hj hij => ?_, fun x hx hx' => entry_alog_log hm h hm8 hx hx', entry_log_zero h,
    entry_alog_nn h, fun x hx => toNat_entry_log_le hm h hm8 hx⟩
  · exact entry_alog hm h (by omega)
  · have hpow : 2 ^ 2 ≤ 2 ^ m := Nat.pow_le_pow_right (by omega) hm2
    rw [entry_alog hm h (by omega), power_eq_two_pow poly (by omega)]
    rfl
  · rw [toNat_entry_alog hm h hm8 hi]
    exact ⟨power_pos hm hp i, Nat.le_sub_one_of_lt (power_lt poly i hm), entry_log_power hm h hi⟩
  · have hpow := congrArg BitVec.toNat hij
    rw [toNat_entry_alog hm h hm8 hi, toNat_entry_alog hm h hm8 hj] at hpow
    exact power_injOn hm hp hi hj hpow

/-- Settles O30: nonzero elements are powers of x, whose product adds the exponents on both sides. -/
theorem tableMultiplicationIsFieldMultiplication : Obligations.TableMultiplicationIsFieldMultiplication :=
  fun _ _ _ _ hm hm8 h _ _ ha hb => toNat_gfmul hm h hm8 ha hb

/-- Settles O31: both products are the power with the exponents added, and at the sentinel nn a whole
period is added. -/
theorem logDomainProductIsTheProductBelowTheSentinel :
    Obligations.LogDomainProductIsTheProductBelowTheSentinel := by
  intro m poly log alog hm hm8 h
  refine ⟨fun la e => rfl, fun la e hla => ?_, fun e => ?_⟩
  · apply BitVec.eq_of_toNat_eq
    rw [toNat_logMul hm h hm8, toNat_gfmul_power hm h hm8 (toNat_entry_alog hm h hm8 hla)
      (toNat_ofNat_byte hm8 (power_lt poly e hm))]
  · have hp := primitive_of_buildField hm h
    rw [toNat_logMul hm h hm8, ← power_mod hp, Nat.add_mod_left, power_mod hp]

/-- Settles O32: a fold keeps the value modulo nn, and the subtraction before it makes it smaller. -/
theorem theSubtractingFoldComputesModReduce : Obligations.TheSubtractingFoldComputesModReduce :=
  fun _ x hm => foldReduce_eq_modReduce hm (Nat.le_refl x)

end Sys2Proof

/-! # Proofs: the generator family (41_generator_poly.md) -/

namespace Sys2Proof.Machine

/-! ## The root exponent modulo nn (rules R50 and R54) -/

theorem rootExponent_succ (fcr prim i : Nat) :
    rootExponent fcr prim (i + 1) = rootExponent fcr prim i + prim := Nat.mul_succ _ _

theorem logMul_mod (nn : Nat) (alog : Table) (la e : Nat) :
    logMul nn alog la (e % nn) = logMul nn alog la e := by
  simp only [logMul, modReduce, Nat.add_mod_mod]

theorem generatorDown_mod (nn : Nat) (log alog : Table) (root j : Nat) (c : List Byte) :
    generatorDown nn log alog (root % nn) j c = generatorDown nn log alog root j c := by
  induction j generalizing c with
  | zero => rfl
  | succ j ih => rw [generatorDown, generatorDown, logMul_mod, ih]

theorem generatorPass_mod (nn : Nat) (log alog : Table) (i root : Nat) (c : List Byte) :
    generatorPass nn log alog i (root % nn) c = generatorPass nn log alog i root c := by
  simp only [generatorPass, generatorDown_mod, logMul_mod]

theorem reducedRoot_eq_rootExponent_mod (nn fcr prim i : Nat) :
    Reference.reducedRoot nn fcr prim i = rootExponent fcr prim i % nn := by
  induction i with
  | zero => rw [Reference.reducedRoot, rootExponent, Nat.add_zero, Nat.mul_comm]
  | succ i ih => rw [Reference.reducedRoot, ih, Nat.mod_add_mod, rootExponent_succ]

/-! ## The builder as a fold over the roots (rules R52 and R53) -/

theorem generatorPasses_eq_foldl (nn : Nat) (log alog : Table) (fcr prim count i : Nat) (c : List Byte) :
    generatorPasses nn log alog prim count i (rootExponent fcr prim i) c =
      (List.range' i count).foldl
        (fun c i => generatorPass nn log alog i (rootExponent fcr prim i) c) c := by
  induction count generalizing i c with
  | zero => rfl
  | succ count ih => rw [generatorPasses, ← rootExponent_succ, ih, List.range'_succ, List.foldl_cons]

/-- The list of BuildGenerator, room for `nroots` roots, after its first `n` passes. -/
def generatorPrefix (nn : Nat) (log alog : Table) (fcr prim nroots n : Nat) : List Byte :=
  (List.range n).foldl (fun c i => generatorPass nn log alog i (rootExponent fcr prim i) c)
    (1 :: List.replicate nroots 0)

theorem buildGenerator_eq_generatorPrefix (nn : Nat) (log alog : Table) (fcr prim nroots : Nat) :
    buildGenerator nn log alog fcr prim nroots = generatorPrefix nn log alog fcr prim nroots nroots := by
  rw [generatorPrefix, List.range_eq_range', ← generatorPasses_eq_foldl, buildGenerator, rootExponent,
    Nat.add_zero, Nat.mul_comm]

theorem generatorPrefix_succ (nn : Nat) (log alog : Table) (fcr prim nroots n : Nat) :
    generatorPrefix nn log alog fcr prim nroots (n + 1) =
      generatorPass nn log alog n (rootExponent fcr prim n)
        (generatorPrefix nn log alog fcr prim nroots n) := by
  simp [generatorPrefix, List.range_succ]

theorem length_generatorPrefix (nn : Nat) (log alog : Table) (fcr prim nroots n : Nat) :
    (generatorPrefix nn log alog fcr prim nroots n).length = nroots + 1 := by
  induction n with
  | zero => simp [generatorPrefix]
  | succ n ih => rw [generatorPrefix_succ, length_generatorPass, ih]

/-! ## Products with 0, and the coefficients of a list -/

@[simp] theorem gfmul_zero_left (nn : Nat) (log alog : Table) (b : Byte) :
    gfmul nn log alog 0#8 b = 0#8 := if_pos (.inl rfl)

@[simp] theorem gfmul_zero_right (nn : Nat) (log alog : Table) (a : Byte) :
    gfmul nn log alog a 0#8 = 0#8 := if_pos (.inr rfl)

theorem coeff_set {c : List Byte} {i : Nat} (hi : i < c.length) (v : Byte) (k : Nat) :
    coeff (c.set i v) k = if k = i then v else coeff c k := by
  simp only [coeff, List.getD_eq_getElem?_getD, List.getElem?_set, hi, eq_comm (a := i)]
  split <;> simp

theorem coeff_of_length_le {c : List Byte} {k : Nat} (hk : c.length ≤ k) : coeff c k = 0 := by
  rw [coeff, List.getD_eq_default _ _ hk]

theorem coeff_mem_or_zero (c : List Byte) (k : Nat) : coeff c k ∈ c ∨ coeff c k = 0 := by
  obtain hk | hk := Nat.lt_or_ge k c.length
  · rw [coeff, List.getD_eq_getElem _ _ hk]
    exact .inl (List.getElem_mem hk)
  · exact .inr (coeff_of_length_le hk)

theorem coeff_replicate_zero (n k : Nat) : coeff (List.replicate n 0) k = 0 :=
  (coeff_mem_or_zero _ k).elim List.eq_of_mem_replicate id

theorem toNat_coeff_le {nn : Nat} {c : List Byte} (hc : ∀ a ∈ c, a.toNat ≤ nn) (k : Nat) :
    (coeff c k).toNat ≤ nn := by
  obtain hmem | hzero := coeff_mem_or_zero c k
  · exact hc _ hmem
  · rw [hzero]
    exact Nat.zero_le nn

theorem eq_of_coeff_eq {c d : List Byte} (hlen : c.length = d.length)
    (h : ∀ k, coeff c k = coeff d k) : c = d := by
  refine List.ext_getElem hlen fun k hc hd => ?_
  have hk := h k
  rwa [coeff, coeff, List.getD_eq_getElem _ _ hc, List.getD_eq_getElem _ _ hd] at hk

/-- What the loop over j puts at j, from the coefficients at j - 1 and j before it (rule R53). -/
def generatorStep (nn : Nat) (log alog : Table) (root : Nat) (low high : Byte) : Byte :=
  if high ≠ 0 then gfadd low (logMul nn alog (Table.entry log high.toNat).toNat root) else low

/-- The descending order reads only old coefficients. -/
theorem coeff_generatorDown (nn : Nat) (log alog : Table) (root : Nat) {j : Nat} {c : List Byte}
    (hj : j < c.length) (k : Nat) :
    coeff (generatorDown nn log alog root j c) k =
      if 1 ≤ k ∧ k ≤ j then generatorStep nn log alog root (coeff c (k - 1)) (coeff c k)
      else coeff c k := by
  induction j generalizing c with
  | zero => rw [generatorDown, if_neg (by omega)]
  | succ j ih =>
    rw [generatorDown, ih (by rw [List.length_set]; omega)]
    simp only [coeff_set hj]
    obtain hk | rfl | hk : k ≤ j ∨ k = j + 1 ∨ j + 1 < k := by omega
    · simp only [show k ≠ j + 1 by omega, show k - 1 ≠ j + 1 by omega, hk, Nat.le_succ_of_le hk, if_false]
    · simp [generatorStep]
    · rw [if_neg (by omega), if_neg (by omega), if_neg (by omega)]

theorem coeff_timesRoot (nn : Nat) (log alog : Table) (c : List Byte) (r : Byte) (k : Nat) :
    coeff (Reference.timesRoot nn log alog c r) k =
      (if 0 < k then coeff c (k - 1) else 0) ^^^ gfmul nn log alog (coeff c k) r := by
  obtain hk | hk := Nat.lt_or_ge k (c.length + 1)
  · simp [coeff, Reference.timesRoot, hk]
  · have hlen : (Reference.timesRoot nn log alog c r).length ≤ k := by simpa [Reference.timesRoot] using hk
    rw [coeff_of_length_le hlen, coeff_of_length_le (c := c) (by omega),
      coeff_of_length_le (c := c) (by omega)]
    simp

theorem length_timesRoot (nn : Nat) (log alog : Table) (c : List Byte) (r : Byte) :
    (Reference.timesRoot nn log alog c r).length = c.length + 1 := by
  simp [Reference.timesRoot]

/-! ## The product of the root factors (rule R51) -/

/-- The product of the factors (x + alpha^(e_i)) over i < n, index = exponent. -/
def rootProduct (nn : Nat) (log alog : Table) (fcr prim n : Nat) : List Byte :=
  (List.range n).foldl
    (fun c i => Reference.timesRoot nn log alog c (Table.entry alog (rootExponent fcr prim i % nn))) [1]

section RootProduct

variable (nn : Nat) (log alog : Table) (fcr prim n : Nat)

theorem rootProduct_zero : rootProduct nn log alog fcr prim 0 = [1] := rfl

theorem rootProduct_succ :
    rootProduct nn log alog fcr prim (n + 1) =
      Reference.timesRoot nn log alog (rootProduct nn log alog fcr prim n)
        (Table.entry alog (rootExponent fcr prim n % nn)) := by
  simp [rootProduct, List.range_succ]

theorem length_rootProduct : (rootProduct nn log alog fcr prim n).length = n + 1 := by
  induction n with
  | zero => rfl
  | succ n ih => rw [rootProduct_succ, length_timesRoot, ih]

/-- The product is monic: above its degree the old coefficients are 0. -/
theorem coeff_rootProduct_last : coeff (rootProduct nn log alog fcr prim n) n = 1 := by
  induction n with
  | zero => rfl
  | succ n ih =>
    rw [rootProduct_succ, coeff_timesRoot, if_pos n.succ_pos, Nat.add_sub_cancel, ih,
      coeff_of_length_le (length_rootProduct ..).le]
    simp

end RootProduct

/-! ## Arithmetic in an accepted field -/

theorem toNat_xor_le {m : Nat} {a b : Byte} (ha : a.toNat ≤ 2 ^ m - 1) (hb : b.toNat ≤ 2 ^ m - 1) :
    (a ^^^ b).toNat ≤ 2 ^ m - 1 := by
  have hpow := Nat.two_pow_pos m
  rw [BitVec.toNat_xor]
  exact Nat.le_sub_one_of_lt (Nat.xor_lt_two_pow (by omega) (by omega))

theorem shift_iterate_xor {m a b : Nat} (poly i : Nat) (ha : a < 2 ^ m) (hb : b < 2 ^ m) :
    (Reference.shift m poly)^[i] (a ^^^ b) =
      (Reference.shift m poly)^[i] a ^^^ (Reference.shift m poly)^[i] b := by
  induction i with
  | zero => rfl
  | succ i ih =>
    simp only [Function.iterate_succ_apply', ih,
      shift_xor poly (shift_iterate_lt poly i ha) (shift_iterate_lt poly i hb)]

theorem productPrefix_xor_left {m a a' : Nat} (poly b n : Nat) (ha : a < 2 ^ m) (ha' : a' < 2 ^ m) :
    productPrefix m poly (a ^^^ a') b n = productPrefix m poly a b n ^^^ productPrefix m poly a' b n := by
  induction n with
  | zero => simp
  | succ n ih =>
    simp only [productPrefix_succ, ih, shift_iterate_xor poly n ha ha']
    split
    · ac_rfl
    · rfl

section FieldArithmetic

variable {m poly : Nat} {log alog : Table} (hm : 1 ≤ m) (h : buildField m poly = some (log, alog))
  (hm8 : m ≤ 8)
include hm h hm8

theorem toNat_gfmul_le (a b : Byte) : (gfmul (2 ^ m - 1) log alog a b).toNat ≤ 2 ^ m - 1 := by
  unfold gfmul
  split
  · exact Nat.zero_le _
  · rw [toNat_logMul hm h hm8]
    exact Nat.le_sub_one_of_lt (power_lt poly _ hm)

theorem toNat_entry_alog_mod (e : Nat) :
    (Table.entry alog (e % (2 ^ m - 1))).toNat = Reference.power m poly e := by
  have hnn : 0 < 2 ^ m - 1 := Nat.sub_pos_of_lt (Nat.one_lt_two_pow (by omega))
  rw [toNat_entry_alog hm h hm8 (Nat.mod_lt _ hnn), power_mod (primitive_of_buildField hm h)]

theorem toNat_entry_alog_mod_le (e : Nat) : (Table.entry alog (e % (2 ^ m - 1))).toNat ≤ 2 ^ m - 1 := by
  rw [toNat_entry_alog_mod hm h hm8]
  exact Nat.le_sub_one_of_lt (power_lt poly e hm)

omit hm8 in
theorem eq_zero_or_toNat_eq_power {a : Byte} (ha : a.toNat ≤ 2 ^ m - 1) :
    a = 0#8 ∨ ∃ i, a.toNat = Reference.power m poly i := by
  by_cases ha0 : a = 0#8
  · exact .inl ha0
  · have hpos : 1 ≤ a.toNat := Nat.pos_of_ne_zero fun h0 => ha0 (BitVec.eq_of_toNat_eq h0)
    obtain ⟨i, -, hi⟩ := exists_power_eq hm (primitive_of_buildField hm h) hpos ha
    exact .inr ⟨i, hi.symm⟩

/-- ALOG undoes LOG on every element: the sentinel is taken back to 0. -/
theorem entry_alog_log_toNat {a : Byte} (ha : a.toNat ≤ 2 ^ m - 1) :
    Table.entry alog (Table.entry log a.toNat).toNat = a := by
  obtain h0 | hpos := Nat.eq_zero_or_pos a.toNat
  · obtain ⟨-, hsentinel⟩ := toNat_entry_log_le hm h hm8 ha
    rw [hsentinel.mpr h0, entry_alog_nn h]
    exact (BitVec.eq_of_toNat_eq h0).symm
  · rw [entry_alog_log hm h hm8 hpos ha, BitVec.ofNat_toNat, BitVec.setWidth_eq]

theorem gfmul_xor_left {a a' b : Byte} (ha : a.toNat ≤ 2 ^ m - 1) (ha' : a'.toNat ≤ 2 ^ m - 1)
    (hb : b.toNat ≤ 2 ^ m - 1) :
    gfmul (2 ^ m - 1) log alog (a ^^^ a') b =
      gfmul (2 ^ m - 1) log alog a b ^^^ gfmul (2 ^ m - 1) log alog a' b := by
  have hpow := Nat.two_pow_pos m
  apply BitVec.eq_of_toNat_eq
  rw [BitVec.toNat_xor, toNat_gfmul hm h hm8 (toNat_xor_le ha ha') hb, toNat_gfmul hm h hm8 ha hb,
    toNat_gfmul hm h hm8 ha' hb, BitVec.toNat_xor]
  exact productPrefix_xor_left poly _ m (by omega) (by omega)

theorem gfmul_right_comm {a b c : Byte} (ha : a.toNat ≤ 2 ^ m - 1) (hb : b.toNat ≤ 2 ^ m - 1)
    (hc : c.toNat ≤ 2 ^ m - 1) :
    gfmul (2 ^ m - 1) log alog (gfmul (2 ^ m - 1) log alog a b) c =
      gfmul (2 ^ m - 1) log alog (gfmul (2 ^ m - 1) log alog a c) b := by
  obtain rfl | ⟨i, hi⟩ := eq_zero_or_toNat_eq_power hm h ha
  · simp
  obtain rfl | ⟨j, hj⟩ := eq_zero_or_toNat_eq_power hm h hb
  · simp
  obtain rfl | ⟨l, hl⟩ := eq_zero_or_toNat_eq_power hm h hc
  · simp
  have hmul {a b : Byte} {i j : Nat} := toNat_gfmul_power (a := a) (b := b) (i := i) (j := j) hm h hm8
  apply BitVec.eq_of_toNat_eq
  rw [hmul (hmul hi hj) hl, hmul (hmul hi hl) hj, Nat.add_right_comm]

/-- Below the sentinel LogMul is the product with alpha^e (rule R45). -/
theorem logMul_log {a : Byte} (ha0 : a ≠ 0) (ha : a.toNat ≤ 2 ^ m - 1) (e : Nat) :
    logMul (2 ^ m - 1) alog (Table.entry log a.toNat).toNat e =
      gfmul (2 ^ m - 1) log alog a (Table.entry alog (e % (2 ^ m - 1))) := by
  have hp := primitive_of_buildField hm h
  obtain rfl | ⟨i, hi⟩ := eq_zero_or_toNat_eq_power hm h ha
  · exact absurd rfl ha0
  apply BitVec.eq_of_toNat_eq
  rw [toNat_logMul hm h hm8, hi, toNat_entry_log_power hm h hm8,
    toNat_gfmul_power hm h hm8 hi (toNat_entry_alog_mod hm h hm8 e), ← power_mod hp, Nat.mod_add_mod,
    power_mod hp]

/-- The zero test of rule R53 makes every product exact. -/
theorem generatorStep_eq (root : Nat) (low : Byte) {high : Byte} (hhigh : high.toNat ≤ 2 ^ m - 1) :
    generatorStep (2 ^ m - 1) log alog root low high =
      low ^^^ gfmul (2 ^ m - 1) log alog high (Table.entry alog (root % (2 ^ m - 1))) := by
  unfold generatorStep
  split
  · rw [logMul_log hm h hm8 ‹_› hhigh, gfadd]
  · obtain rfl : high = 0#8 := by simpa using ‹¬ high ≠ 0›
    simp

/-! ## A pass multiplies by a root factor (rules R51 and R53) -/

/-- On a monic polynomial of degree i with a nonzero constant term, pass i multiplies by (x + alpha^root). -/
theorem coeff_generatorPass {i root : Nat} {c : List Byte} (hlen : i + 1 < c.length)
    (hlast : coeff c i = 1) (habove : ∀ k, i < k → coeff c k = 0) (hfirst : coeff c 0 ≠ 0)
    (hle : ∀ k, (coeff c k).toNat ≤ 2 ^ m - 1) (k : Nat) :
    coeff (generatorPass (2 ^ m - 1) log alog i root c) k =
      coeff (Reference.timesRoot (2 ^ m - 1) log alog c
        (Table.entry alog (root % (2 ^ m - 1)))) k := by
  have hdown (k : Nat) : coeff (generatorDown (2 ^ m - 1) log alog root i (c.set (i + 1) 1)) k = _ :=
    coeff_generatorDown (2 ^ m - 1) log alog root (by rw [List.length_set]; omega) k
  simp only [coeff_set hlen] at hdown
  rw [generatorPass, coeff_set (by rw [length_generatorDown, List.length_set]; omega), coeff_timesRoot,
    hdown, hdown]
  obtain rfl | hk | rfl | hk : k = 0 ∨ (1 ≤ k ∧ k ≤ i) ∨ k = i + 1 ∨ i + 1 < k := by omega
  · simp [logMul_log hm h hm8 hfirst (hle 0)]
  · obtain ⟨hne, hlow, hpos⟩ : k ≠ i + 1 ∧ k - 1 ≠ i + 1 ∧ 0 < k := by omega
    simp [hk, hne, hlow, hpos, hpos.ne', generatorStep_eq hm h hm8 _ _ (hle k)]
  · simp [hlast, habove]
  · obtain ⟨hne, hgt, hpos⟩ : k ≠ i + 1 ∧ ¬ k ≤ i ∧ k ≠ 0 := by omega
    simp [hne, hgt, hpos, habove k (by omega), habove (k - 1) (by omega)]

theorem toNat_rootProduct_le (fcr prim n : Nat) :
    ∀ a ∈ rootProduct (2 ^ m - 1) log alog fcr prim n, a.toNat ≤ 2 ^ m - 1 := by
  have hpow : 1 < 2 ^ m := Nat.one_lt_two_pow (by omega)
  induction n with
  | zero =>
    intro a ha
    rw [rootProduct_zero, List.mem_singleton] at ha
    rw [ha]
    exact Nat.le_sub_one_of_lt hpow
  | succ n ih =>
    intro a ha
    rw [rootProduct_succ, Reference.timesRoot] at ha
    obtain ⟨j, -, rfl⟩ := List.mem_map.mp ha
    refine toNat_xor_le ?_ (toNat_gfmul_le hm h hm8 _ _)
    split
    · exact toNat_coeff_le ih _
    · exact Nat.zero_le _

/-- The constant term is alpha to the sum of the root exponents (rule R56). -/
theorem toNat_coeff_rootProduct_zero (fcr prim n : Nat) :
    (coeff (rootProduct (2 ^ m - 1) log alog fcr prim n) 0).toNat =
      Reference.power m poly ((List.range n).map (rootExponent fcr prim)).sum := by
  induction n with
  | zero => rfl
  | succ n ih =>
    have hmul := toNat_gfmul_power hm h hm8 ih (toNat_entry_alog_mod hm h hm8 (rootExponent fcr prim n))
    simpa [rootProduct_succ, coeff_timesRoot, List.range_succ] using hmul

theorem coeff_rootProduct_zero_ne (fcr prim n : Nat) :
    coeff (rootProduct (2 ^ m - 1) log alog fcr prim n) 0 ≠ 0 := by
  intro hzero
  have hpow := toNat_coeff_rootProduct_zero hm h hm8 fcr prim n
  rw [hzero] at hpow
  exact (power_pos hm (primitive_of_buildField hm h) _).ne hpow

/-- After n passes the list holds the product of n factors, followed by zeros. -/
theorem coeff_generatorPrefix {fcr prim nroots n : Nat} (hn : n ≤ nroots) (k : Nat) :
    coeff (generatorPrefix (2 ^ m - 1) log alog fcr prim nroots n) k =
      coeff (rootProduct (2 ^ m - 1) log alog fcr prim n) k := by
  induction n generalizing k with
  | zero =>
    cases k with
    | zero => rfl
    | succ k => exact coeff_replicate_zero nroots k
  | succ n ih =>
    have ih := ih (by omega)
    rw [generatorPrefix_succ, rootProduct_succ, coeff_generatorPass hm h hm8
      (by rw [length_generatorPrefix]; omega)]
    · simp only [coeff_timesRoot, ih]
    · rw [ih, coeff_rootProduct_last]
    · intro k hk
      rw [ih, coeff_of_length_le (by rw [length_rootProduct]; omega)]
    · rw [ih]
      exact coeff_rootProduct_zero_ne hm h hm8 fcr prim n
    · intro k
      rw [ih]
      exact toNat_coeff_le (toNat_rootProduct_le hm h hm8 fcr prim n) k

theorem buildGenerator_eq_rootProduct (fcr prim nroots : Nat) :
    buildGenerator (2 ^ m - 1) log alog fcr prim nroots =
      rootProduct (2 ^ m - 1) log alog fcr prim nroots := by
  rw [buildGenerator_eq_generatorPrefix]
  refine eq_of_coeff_eq ?_ (coeff_generatorPrefix hm h hm8 (Nat.le_refl nroots))
  rw [length_generatorPrefix, length_rootProduct]

end FieldArithmetic

/-! ## Evaluation of the product at its roots (rules R50 and R51) -/

/-- The coefficients of c times (x + r), plus the constant b; index = exponent. -/
def timesRootPlus (nn : Nat) (log alog : Table) (r : Byte) : Byte → List Byte → List Byte
  | b, [] => [b]
  | b, a :: c => (b ^^^ gfmul nn log alog a r) :: timesRootPlus nn log alog r a c

theorem timesRootPlus_eq_map (nn : Nat) (log alog : Table) (r b : Byte) (c : List Byte) :
    timesRootPlus nn log alog r b c = (List.range (c.length + 1)).map
      (fun j => (if 0 < j then coeff c (j - 1) else b) ^^^ gfmul nn log alog (coeff c j) r) := by
  induction c generalizing b with
  | nil => simp [timesRootPlus, coeff]
  | cons a c ih =>
    rw [timesRootPlus, ih, List.length_cons, List.range_succ_eq_map (n := c.length + 1), List.map_cons,
      List.map_map]
    refine congrArg₂ _ rfl (List.map_congr_left fun j _ => ?_)
    cases j <;> rfl

theorem timesRoot_eq_timesRootPlus (nn : Nat) (log alog : Table) (c : List Byte) (r : Byte) :
    Reference.timesRoot nn log alog c r = timesRootPlus nn log alog r 0 c :=
  (timesRootPlus_eq_map nn log alog r 0 c).symm

theorem evalHighFirst_reverse_cons (nn : Nat) (log alog : Table) (a : Byte) (c : List Byte) (x : Byte) :
    Reference.evalHighFirst nn log alog (a :: c).reverse x =
      gfmul nn log alog (Reference.evalHighFirst nn log alog c.reverse x) x ^^^ a := by
  simp [Reference.evalHighFirst, List.foldl_append]

section Evaluation

variable {m poly : Nat} {log alog : Table} (hm : 1 ≤ m) (h : buildField m poly = some (log, alog))
  (hm8 : m ≤ 8)
include hm h hm8

theorem toNat_evalHighFirst_reverse_le {c : List Byte} (hc : ∀ a ∈ c, a.toNat ≤ 2 ^ m - 1) (x : Byte) :
    (Reference.evalHighFirst (2 ^ m - 1) log alog c.reverse x).toNat ≤ 2 ^ m - 1 := by
  cases c with
  | nil => exact Nat.zero_le _
  | cons a c =>
    rw [evalHighFirst_reverse_cons]
    exact toNat_xor_le (toNat_gfmul_le hm h hm8 _ _) (hc a List.mem_cons_self)

/-- Evaluation respects the multiplication by (x + r). -/
theorem evalHighFirst_timesRootPlus {r x : Byte} (hr : r.toNat ≤ 2 ^ m - 1) (hx : x.toNat ≤ 2 ^ m - 1)
    (b : Byte) {c : List Byte} (hc : ∀ a ∈ c, a.toNat ≤ 2 ^ m - 1) :
    Reference.evalHighFirst (2 ^ m - 1) log alog
        (timesRootPlus (2 ^ m - 1) log alog r b c).reverse x =
      gfmul (2 ^ m - 1) log alog (Reference.evalHighFirst (2 ^ m - 1) log alog c.reverse x) x ^^^
        gfmul (2 ^ m - 1) log alog (Reference.evalHighFirst (2 ^ m - 1) log alog c.reverse x) r ^^^ b := by
  induction c generalizing b with
  | nil => simp [timesRootPlus, Reference.evalHighFirst]
  | cons a c ih =>
    obtain ⟨ha, hc⟩ := List.forall_mem_cons.mp hc
    have he := toNat_evalHighFirst_reverse_le hm h hm8 hc x
    have hmul := toNat_gfmul_le hm h hm8
    rw [timesRootPlus, evalHighFirst_reverse_cons, ih _ hc, evalHighFirst_reverse_cons]
    generalize Reference.evalHighFirst (2 ^ m - 1) log alog c.reverse x = e at he
    rw [gfmul_xor_left hm h hm8 (toNat_xor_le (hmul _ _) (hmul _ _)) ha hx,
      gfmul_xor_left hm h hm8 (hmul _ _) (hmul _ _) hx, gfmul_xor_left hm h hm8 (hmul _ _) ha hx,
      gfmul_xor_left hm h hm8 (hmul _ _) ha hr, gfmul_right_comm hm h hm8 he hr hx]
    ac_rfl

/-- Each alpha^(e_i) is a root of its own factor, and stays one of every later product. -/
theorem evalHighFirst_rootProduct {fcr prim n i : Nat} (hi : i < n) :
    Reference.evalHighFirst (2 ^ m - 1) log alog
      (rootProduct (2 ^ m - 1) log alog fcr prim n).reverse
      (Table.entry alog (rootExponent fcr prim i % (2 ^ m - 1))) = 0 := by
  have hle := toNat_entry_alog_mod_le hm h hm8
  induction n with
  | zero => omega
  | succ n ih =>
    rw [rootProduct_succ, timesRoot_eq_timesRootPlus,
      evalHighFirst_timesRootPlus hm h hm8 (hle _) (hle _) 0 (toNat_rootProduct_le hm h hm8 fcr prim n)]
    obtain hlt | rfl := Nat.lt_succ_iff_lt_or_eq.mp hi
    · simp [ih hlt]
    · simp

end Evaluation

/-! ## The tables a valid configuration holds (rules R55 and R81) -/

/-- The loop of BuildField writes no entry beyond nn. -/
theorem entry_fieldPrefix_beyond {m n x : Nat} (poly : Nat) (hm : 1 ≤ m) (hn : n ≤ 2 ^ m - 1)
    (hx : 2 ^ m - 1 < x) :
    Table.entry (fieldPrefix m poly n).log x = 0 ∧ Table.entry (fieldPrefix m poly n).alog x = 0 := by
  induction n with
  | zero => exact ⟨rfl, rfl⟩
  | succ n ih =>
    have hpow := power_lt poly n hm
    rw [fieldPrefix_log_succ poly n hm, fieldPrefix_alog_succ poly n hm, Table.entry_put,
      Table.entry_put, if_neg (by omega), if_neg (by omega)]
    exact ih (by omega)

theorem entry_beyond_of_buildField {m poly x : Nat} {log alog : Table} (hm : 1 ≤ m)
    (h : buildField m poly = some (log, alog)) (hx : 2 ^ m - 1 < x) :
    Table.entry log x = 0 ∧ Table.entry alog x = 0 := by
  obtain ⟨-, -, htables⟩ := (buildField_eq_some_iff _ _ _).mp h
  obtain ⟨rfl, rfl⟩ := Prod.mk.inj htables
  rw [Table.entry_put, Table.entry_put, if_neg (by omega), if_neg (by unfold blockLength; omega)]
  exact entry_fieldPrefix_beyond poly hm (Nat.le_refl _) hx

/-- A commit that keeps a table up to n keeps it whole if it is 0 beyond n. -/
theorem entry_ofEntries_of_beyond {t : Table} {n : Nat} (hn : n ≤ 255)
    (hbeyond : ∀ x, n < x → Table.entry t x = 0) (x : Nat) :
    Table.entry (Table.ofEntries (fun x => if x ≤ n then Table.entry t x else 0)) x =
      Table.entry t x := by
  rw [Table.entry_ofEntries]
  obtain hx | hx := Nat.lt_or_ge n x
  · rw [if_neg (Nat.not_le.mpr hx), ite_self, hbeyond x hx]
  · rw [if_pos (by omega), if_pos hx]

/-- The tables INIT commits hold the entries of the built field and the logarithms of the product of the
root factors. -/
theorem tables_of_initResult {p : Params} {c : Configuration} (h : initResult p = .ok c) :
    ∃ log alog, buildField p.symw.toNat p.poly.toNat = some (log, alog) ∧
      Table.entry c.log = Table.entry log ∧ Table.entry c.alog = Table.entry alog ∧
      ∀ j, Table.entry c.genpoly j =
        if j ≤ p.nroots.toNat then
          Table.entry log (coeff
            (rootProduct p.nn log alog p.fcr.toNat p.prim.toNat p.nroots.toNat) j).toNat
        else 0 := by
  obtain ⟨hr, log, alog, hb, rfl⟩ := initResult_eq_ok h
  obtain ⟨-, hnn⟩ := Params.nn_bounds hr
  obtain ⟨⟨hm, hm8⟩, -, -, hnroots, -⟩ := hr
  have hbeyond (x : Nat) (hx : p.nn < x) := entry_beyond_of_buildField hm hb hx
  refine ⟨log, alog, hb, funext (entry_ofEntries_of_beyond hnn fun x hx => (hbeyond x hx).1),
    funext (entry_ofEntries_of_beyond hnn fun x hx => (hbeyond x hx).2), fun j => ?_⟩
  have hgen : buildGenerator p.nn log alog p.fcr.toNat p.prim.toNat p.nroots.toNat =
      rootProduct p.nn log alog p.fcr.toNat p.prim.toNat p.nroots.toNat :=
    buildGenerator_eq_rootProduct hm hb hm8 _ _ _
  rw [configurationOf, Table.entry_ofEntries, hgen]
  unfold Params.nn blockLength at hnn
  split
  · rfl
  · rw [if_neg (by omega)]

/-- Evaluation reads only entries of the tables. -/
theorem evalHighFirst_congr {log log' alog alog' : Table} (hlog : Table.entry log = Table.entry log')
    (halog : Table.entry alog = Table.entry alog') (nn : Nat) :
    Reference.evalHighFirst nn log alog = Reference.evalHighFirst nn log' alog' := by
  funext c x
  simp only [Reference.evalHighFirst, gfmul, logMul, hlog, halog]

/-- What the tables of a valid configuration hold, in terms of an accepted field of width cfg.m. -/
structure ValidTables (s : State) (log alog : Table) : Prop where
  width_pos : 1 ≤ s.cfg.m.toNat
  width_le : s.cfg.m.toNat ≤ 8
  built : buildField s.cfg.m.toNat s.cfg.poly.toNat = some (log, alog)
  nn_eq : s.cfg.nn.toNat = 2 ^ s.cfg.m.toNat - 1
  log_eq : Table.entry s.log = Table.entry log
  alog_eq : Table.entry s.alog = Table.entry alog
  genpoly_eq : ∀ j, Table.entry s.genpoly j =
    if j ≤ s.cfg.nroots.toNat then
      Table.entry log (coeff (rootProduct (2 ^ s.cfg.m.toNat - 1) log alog s.cfg.fcr.toNat
        s.cfg.prim.toNat s.cfg.nroots.toNat) j).toNat
    else 0

theorem State.Inv.exists_validTables {s : State} (hs : s.Inv) (hv : s.status.valid = true) :
    ∃ log alog, ValidTables s log alog := by
  have hinit := hs.initResult_mirroredParams hv
  obtain ⟨⟨⟨hm, hm8⟩, -⟩, -⟩ := initResult_eq_ok hinit
  obtain ⟨hnn, -⟩ := nn_k_of_initResult hinit
  obtain ⟨log, alog, hb, hlog, halog, hgen⟩ := tables_of_initResult hinit
  simp only [mirroredParams_symw_toNat, mirroredParams_poly, mirroredParams_fcr_toNat,
    mirroredParams_prim_toNat, mirroredParams_nroots_toNat, mirroredParams_nn,
    State.configuration_cfg] at *
  exact ⟨log, alog, hm, hm8, hb, hnn, hlog, halog, hgen⟩

/-- The active generator polynomial is the product of the root factors (rules R51 and R55). -/
theorem ValidTables.generatorOf_eq {s : State} {log alog : Table} (ht : ValidTables s log alog) :
    Reference.generatorOf s = rootProduct (2 ^ s.cfg.m.toNat - 1) log alog s.cfg.fcr.toNat
      s.cfg.prim.toNat s.cfg.nroots.toNat := by
  obtain ⟨hm, hm8, hb, -, -, halog, hgen⟩ := ht
  refine eq_of_coeff_eq (by simp [Reference.generatorOf, length_rootProduct]) fun k => ?_
  obtain hk | hk := Nat.lt_or_ge s.cfg.nroots.toNat k
  · rw [coeff_of_length_le (by simpa [Reference.generatorOf] using hk),
      coeff_of_length_le (by rw [length_rootProduct]; exact hk)]
  · have hcoeff : coeff (Reference.generatorOf s) k =
        Table.entry s.alog (Table.entry s.genpoly k).toNat := by
      simp [coeff, Reference.generatorOf, Nat.lt_succ_of_le hk]
    rw [hcoeff, halog, hgen, if_pos hk, entry_alog_log_toNat hm hb hm8
      (toNat_coeff_le (toNat_rootProduct_le hm hb hm8 _ _ _) k)]

/-! ## The inverse of prim (rules R57 and R58) -/

theorem iPrim_of_gcd_ne_one {nn prim : Nat} (hg : Nat.gcd prim nn ≠ 1) : iPrim nn prim = none :=
  if_pos hg

/-- With gcd(prim, nn) = 1 there is an inverse in 1 .. nn. -/
theorem exists_inverse {nn prim : Nat} (hnn : 1 ≤ nn) (hg : Nat.gcd prim nn = 1) :
    ∃ i, 1 ≤ i ∧ i ≤ nn ∧ (i * prim) % nn = 1 % nn := by
  obtain rfl | hlt := Nat.eq_or_lt_of_le hnn
  · exact ⟨1, Nat.le_refl 1, Nat.le_refl 1, by rw [Nat.mod_one]⟩
  · obtain ⟨i, hi, hinv⟩ := Nat.exists_mul_mod_eq_one_of_coprime hg hlt
    refine ⟨i, Nat.pos_of_ne_zero ?_, hi.le, by rw [Nat.mul_comm, hinv, Nat.mod_eq_of_lt hlt]⟩
    rintro rfl
    simp at hinv

/-- The search finds the least inverse. -/
theorem iPrim_of_gcd_eq_one {nn prim : Nat} (hnn : 1 ≤ nn) (hg : Nat.gcd prim nn = 1) :
    ∃ i, iPrim nn prim = some i ∧ ∀ j, 1 ≤ j → (j * prim) % nn = 1 % nn → i ≤ j := by
  obtain ⟨i₀, hpos, hle, hinv⟩ := exists_inverse hnn hg
  have hfound : (iPrim nn prim).isSome = true := by
    rw [iPrim, if_neg (not_not.mpr hg), List.find?_isSome]
    exact ⟨i₀, List.mem_map.mpr ⟨i₀ - 1, List.mem_range.mpr (by omega), by omega⟩, decide_eq_true hinv⟩
  obtain ⟨i, hi⟩ := Option.isSome_iff_exists.mp hfound
  refine ⟨i, hi, fun j hj hjinv => Nat.le_of_not_lt fun hlt => ?_⟩
  rw [iPrim, if_neg (not_not.mpr hg), List.find?_map, Option.map_eq_some_iff] at hi
  obtain ⟨n, hn, rfl⟩ := hi
  obtain ⟨-, -, hbefore⟩ := List.find?_range_eq_some.mp hn
  have hnot := hbefore (j - 1) (by omega)
  simp [Nat.sub_add_cancel hj, modReduce, hjinv] at hnot

/-- Above nn = 1 the end of the search is no inverse. -/
theorem inverse_lt {nn prim i : Nat} (hnn : 1 < nn) (hle : i ≤ nn) (hinv : (i * prim) % nn = 1 % nn) :
    i < nn := by
  refine Nat.lt_of_le_of_ne hle ?_
  rintro rfl
  rw [Nat.mul_mod_right, Nat.mod_eq_of_lt hnn] at hinv
  cases hinv

/-- The least inverse gives the least number of 1, 1 + nn, ... that prim divides (rule R57). -/
theorem inverse_mul_le_of_dvd {nn prim i k : Nat}
    (hleast : ∀ j, 1 ≤ j → (j * prim) % nn = 1 % nn → i ≤ j) (hk : 1 ≤ k) (hkinv : k % nn = 1 % nn)
    (hdvd : prim ∣ k) : i * prim ≤ k := by
  obtain ⟨j, rfl⟩ := hdvd
  rw [Nat.mul_comm] at hkinv ⊢
  exact Nat.mul_le_mul_left _ (hleast j (Nat.pos_of_mul_pos_left hk) hkinv)

/-- With parameters in range and a primitive polynomial INIT commits, cfg.iprim and IPRIM_VALID as the
search answers. -/
theorem execInit_of_primitive {s : State} (hr : Reference.InRange s.params)
    (hp : Reference.Primitive s.params.symw.toNat s.params.poly.toNat) :
    ∃ t, exec .init s = .next t ∧ t.status.valid = true ∧ t.status.err = 0 ∧
      t.status.iprimValid = (iPrim s.params.nn s.params.prim.toNat).isSome ∧
      t.cfg.iprim = BitVec.ofNat 8 ((iPrim s.params.nn s.params.prim.toNat).getD 0) := by
  have ⟨⟨hm, _⟩, _⟩ := hr
  obtain ⟨-, hout⟩ | ⟨-, ⟨-, hb⟩ | ⟨log, alog, -, hx⟩⟩ := initResult_cases s.params
  · exact absurd ((rangeChecks_iff_inRange _).mpr hr) hout
  · have hsome := (buildField_isSome_iff_primitive _ hm).mpr hp
    rw [hb] at hsome
    cases hsome
  · exact ⟨_, by rw [exec, execInit, hx], rfl, rfl, rfl, rfl⟩

end Sys2Proof.Machine

/-! ## The obligations of the generator family -/

namespace Sys2Proof

open Sys2Proof.Machine

/-- Settles O34: LogMul reduces its sum modulo nn, so it takes the exponent reduced or not. -/
theorem reducedRootExponentsGiveTheSameGenerator :
    Obligations.ReducedRootExponentsGiveTheSameGenerator := by
  intro nn log alog fcr prim nroots
  simp only [reducedRoot_eq_rootExponent_mod, generatorPass_mod]
  exact buildGenerator_eq_generatorPrefix nn log alog fcr prim nroots

/-- Settles O33: after each pass the list holds the product so far, which is monic with a nonzero constant
term. -/
theorem theGeneratorIsTheProductOfItsRootFactors :
    Obligations.TheGeneratorIsTheProductOfItsRootFactors :=
  fun _ _ _ _ hm hm8 h fcr prim nroots => buildGenerator_eq_rootProduct hm h hm8 fcr prim nroots

/-- Settles O35: GENPOLY holds the logarithms of the product of the root factors, whose last coefficient is
alpha^0 and whose first is alpha to the sum of the exponents. -/
theorem generatorEntriesOfAValidConfiguration : Obligations.GeneratorEntriesOfAValidConfiguration := by
  intro s hs hv
  obtain ⟨log, alog, hm, hm8, hb, hnn, -, -, hgen⟩ := hs.exists_validTables hv
  have hnn1 : 1 < 2 ^ s.cfg.m.toNat := Nat.one_lt_two_pow (by omega)
  simp only [hgen, hnn]
  refine ⟨?_, ?_, fun j => ?_, fun j hj => if_neg (Nat.not_le.mpr hj)⟩
  · rw [if_pos (Nat.le_refl _), coeff_rootProduct_last]
    exact entry_log_power hm hb (i := 0) (by omega)
  · rw [if_pos (Nat.zero_le _), toNat_coeff_rootProduct_zero hm hb hm8, toNat_entry_log_power hm hb hm8]
    rfl
  · split
    · exact (toNat_entry_log_le hm hb hm8 (toNat_coeff_le (toNat_rootProduct_le hm hb hm8 _ _ _) j)).1
    · exact Nat.zero_le _

/-- Settles O36: the active generator is the product of the root factors, and each alpha^(e_i) is a root of
its own factor. -/
theorem theGeneratorVanishesAtItsRoots : Obligations.TheGeneratorVanishesAtItsRoots := by
  intro s hs hv i hi
  obtain ⟨log, alog, ht⟩ := hs.exists_validTables hv
  rw [ht.generatorOf_eq, Reference.rootOf, evalHighFirst_congr ht.log_eq ht.alog_eq, ht.alog_eq, ht.nn_eq]
  exact evalHighFirst_rootProduct ht.width_pos ht.built ht.width_le hi

/-- Settles O26: with gcd(prim, nn) = 1 the search over 1 .. nn meets the least inverse, which fits cfg.iprim
whole; otherwise it answers none. -/
theorem iprimIsTheInverseOrAbsent : Obligations.IprimIsTheInverseOrAbsent := by
  intro s hr hp
  obtain ⟨t, ht, hvalid, herr, hiv, hiprim⟩ := execInit_of_primitive hr hp
  obtain ⟨hnn1, hnn255⟩ := Params.nn_bounds hr
  refine ⟨t, ht, hvalid, herr, fun hg => ?_, fun hg => ?_⟩
  · obtain ⟨i, hi, hleast⟩ := iPrim_of_gcd_eq_one hnn1 hg
    obtain ⟨-, hpos, hle, hinv⟩ := iPrim_eq_some hi
    have hval : t.cfg.iprim.toNat = i := by
      rw [hiprim, hi, Option.getD_some, BitVec.toNat_ofNat, Nat.mod_eq_of_lt (by omega)]
    rw [hval, hiv, hi]
    refine ⟨rfl, hpos, fun hm2 => ?_, fun hm1 => ?_, hinv, hleast,
      fun k hk hkinv hdvd => inverse_mul_le_of_dvd hleast hk hkinv hdvd⟩
    · have hpow : 2 ^ 2 ≤ 2 ^ s.params.symw.toNat := Nat.pow_le_pow_right (by omega) hm2
      exact Nat.le_sub_one_of_lt (inverse_lt (by omega) hle hinv)
    · rw [Params.nn, hm1] at hle
      exact Nat.le_antisymm hle hpos
  · have hnone : iPrim s.params.nn s.params.prim.toNat = none := iPrim_of_gcd_ne_one hg
    rw [hiv, hiprim, hnone]
    exact ⟨rfl, rfl⟩

end Sys2Proof

/-! # Proofs: the encoder family (42_encoder.md) -/

namespace Sys2Proof.Machine

variable {s t : State} {ds : List Byte}

/-! ## What ENCODE answers (rules R62 to R66) -/

/-- The state a completed ENCODE with roots leaves after it has read the symbols `ds`. -/
def State.encoded (s : State) (ds : List Byte) : State :=
  (s.writeParityAll (encodeRun s.encoderTables s.cfg.nroots.toNat ds)).setErr .none

theorem exec_encode_of_invalid (hv : s.status.valid = false) :
    exec .encode s = .fault .encodeNotInitialized := by
  rw [exec, execEncode, if_pos hv, raiseFault]

theorem exec_encode_without_roots (hv : s.status.valid = true) (hn : s.cfg.nroots.toNat = 0) :
    exec .encode s = .next (s.setErr .none) := by
  rw [exec, execEncode, if_neg (by simp [hv]), if_pos hn]

theorem exec_encode_of_error {r : Fault} (hv : s.status.valid = true) (hn : s.cfg.nroots.toNat ≠ 0)
    (hr : readSymbols s.cfg.nn.toNat s.data 0 s.cfg.k.toNat = .error r) :
    exec .encode s = .fault r := by
  rw [exec, execEncode, if_neg (by simp [hv]), if_neg hn, hr]
  rfl

theorem exec_encode_of_ok (hv : s.status.valid = true) (hn : s.cfg.nroots.toNat ≠ 0)
    (hds : readSymbols s.cfg.nn.toNat s.data 0 s.cfg.k.toNat = .ok ds) :
    exec .encode s = .next (s.encoded ds) := by
  rw [exec, execEncode, if_neg (by simp [hv]), if_neg hn, hds]
  rfl

/-- ENCODE completes only without roots, or with every symbol read. -/
theorem exec_encode_next (h : exec .encode s = .next t) :
    s.status.valid = true ∧ ((s.cfg.nroots.toNat = 0 ∧ t = s.setErr .none) ∨
      (s.cfg.nroots.toNat ≠ 0 ∧ ∃ ds, readSymbols s.cfg.nn.toNat s.data 0 s.cfg.k.toNat = .ok ds ∧
        t = s.encoded ds)) := by
  cases effect_of_execEncode h with
  | encodeWithoutRoots hv hn => exact ⟨hv, .inl ⟨hn, rfl⟩⟩
  | encoded ds hv hn hds => exact ⟨hv, .inr ⟨hn, ds, hds, rfl⟩⟩

/-! ## Reading the symbols (rule R62) -/

/-- Symbols that pass their checks leave the fault to those after them. -/
theorem readSymbols_error_of_checked {nn i base count : Nat} {data : Memory} {r : Fault}
    (hchecked : ∀ j, j < i → ∃ d, Memory.read data (base + j) = some d ∧ d.toNat ≤ nn)
    (hr : readSymbols nn data (base + i) count = .error r) :
    readSymbols nn data base (i + count) = .error r := by
  induction i generalizing base with
  | zero => rwa [Nat.zero_add]
  | succ i ih =>
    obtain ⟨d, hd, hle⟩ := hchecked 0 i.succ_pos
    have htail : readSymbols nn data (base + 1) (i + count) = .error r := by
      refine ih (fun j hj => ?_) (by rwa [Nat.add_assoc, Nat.add_comm 1 i])
      have hnext := hchecked (j + 1) (Nat.succ_lt_succ hj)
      rwa [Nat.add_comm j 1, ← Nat.add_assoc] at hnext
    rw [Nat.succ_add, readSymbols, show Memory.read data base = some d from hd]
    simp only [if_neg (Nat.not_lt.mpr hle), htail]

theorem readSymbols_of_unwritten {nn i count : Nat} {data : Memory} (h : Memory.read data i = none) :
    readSymbols nn data i (count + 1) = .error (.encodeDataUnwritten i) := by
  rw [readSymbols, h]

theorem readSymbols_of_range {nn i count : Nat} {data : Memory} {d : Byte}
    (h : Memory.read data i = some d) (hd : nn < d.toNat) :
    readSymbols nn data i (count + 1) = .error (.encodeSymbolRange i) := by
  rw [readSymbols, h]
  exact if_pos hd

/-- With the symbols below i passing their checks, a fault of symbol i is the fault of ENCODE. -/
theorem exec_encode_of_first_fault {i : Nat} {r : Fault} (hv : s.status.valid = true)
    (hn : s.cfg.nroots ≠ 0) (hi : i < s.cfg.k.toNat)
    (hchecked : ∀ j, j < i → ∃ d, Memory.read s.data j = some d ∧ d.toNat ≤ s.cfg.nn.toNat)
    (hr : ∀ count, readSymbols s.cfg.nn.toNat s.data i (count + 1) = .error r) :
    exec .encode s = .fault r := by
  obtain ⟨count, hcount⟩ := Nat.exists_eq_add_of_lt hi
  refine exec_encode_of_error hv (fun h0 => hn (BitVec.eq_of_toNat_eq h0)) ?_
  rw [hcount, Nat.add_assoc]
  exact readSymbols_error_of_checked (by simpa using hchecked) (by simpa using hr count)

theorem readSymbols_congr {nn i count : Nat} {data data' : Memory}
    (h : ∀ j, i ≤ j → j < i + count → Memory.read data j = Memory.read data' j) :
    readSymbols nn data i count = readSymbols nn data' i count := by
  induction count generalizing i with
  | zero => rfl
  | succ count ih =>
    rw [readSymbols, readSymbols, h i (Nat.le_refl i) (by omega),
      ih fun j hj hj' => h j (by omega) (by omega)]

/-- Symbols that have been read are elements of 0 .. nn. -/
theorem toNat_le_of_readSymbols {nn i count : Nat} {data : Memory}
    (hds : readSymbols nn data i count = .ok ds) : ∀ d ∈ ds, d.toNat ≤ nn := by
  obtain ⟨hlen, hread⟩ := (readSymbols_ok_iff ..).mp hds
  intro d hd
  obtain ⟨j, hj, rfl⟩ := List.getElem_of_mem hd
  obtain ⟨e, -, hle, he⟩ := hread j (by omega)
  rw [List.getElem?_eq_getElem hj, Option.some_inj] at he
  rwa [he]

/-- Written zeros in front of symbols that can be read are read as zero symbols (rule R69). -/
theorem readSymbols_zeros_append {nn q count : Nat} {data data' : Memory}
    (hds : readSymbols nn data 0 count = .ok ds) (hzero : ∀ i, i < q → Memory.read data' i = some 0)
    (hrest : ∀ i, i < count → Memory.read data' (q + i) = Memory.read data i) :
    readSymbols nn data' 0 (q + count) = .ok (List.replicate q 0 ++ ds) := by
  obtain ⟨hlen, hread⟩ := (readSymbols_ok_iff ..).mp hds
  refine (readSymbols_ok_iff ..).mpr ⟨by simp [hlen], fun j hj => ?_⟩
  rw [Nat.zero_add]
  obtain hjq | hjq := Nat.lt_or_ge j q
  · exact ⟨0, hzero j hjq, Nat.zero_le nn, by simp [List.getElem?_append, hjq]⟩
  · obtain ⟨i, rfl⟩ := Nat.exists_eq_add_of_le hjq
    obtain ⟨d, hd, hle, hget⟩ := hread i (by omega)
    rw [Nat.zero_add] at hd
    exact ⟨d, (hrest i (by omega)).trans hd, hle, by simp [List.getElem?_append_right, hget]⟩

/-! ## Coefficients of lists -/

theorem coeff_map_range (f : Nat → Byte) {n j : Nat} (hj : j < n) :
    coeff ((List.range n).map f) j = f j := by
  simp [coeff, hj]

theorem coeff_append (a b : List Byte) (k : Nat) :
    coeff (a ++ b) k = if k < a.length then coeff a k else coeff b (k - a.length) := by
  simp only [coeff, List.getD_eq_getElem?_getD, List.getElem?_append]
  split <;> rfl

theorem coeff_drop (a : List Byte) (i k : Nat) : coeff (a.drop i) k = coeff a (i + k) := by
  simp only [coeff, List.getD_eq_getElem?_getD, List.getElem?_drop]

theorem coeff_tail (c : List Byte) (k : Nat) : coeff c.tail k = coeff c (k + 1) := by
  cases c <;> rfl

theorem coeff_reverse {c : List Byte} {k : Nat} (hk : k < c.length) :
    coeff c.reverse k = coeff c (c.length - 1 - k) := by
  simp only [coeff, List.getD_eq_getElem?_getD, List.getElem?_reverse hk]

theorem coeff_zero_cons (c : List Byte) (k : Nat) :
    coeff (0 :: c) k = if 0 < k then coeff c (k - 1) else 0 := by
  cases k <;> rfl

theorem toNat_coeff_zero_cons_le {nn : Nat} {c : List Byte} (hc : ∀ k, (coeff c k).toNat ≤ nn) (k : Nat) :
    (coeff (0 :: c) k).toNat ≤ nn := by
  cases k with
  | zero => exact Nat.zero_le nn
  | succ k => exact hc k

/-! ## The loop is the shift register (rules R64 and R65) -/

theorem length_registerShift (nn n : Nat) (log alog genpoly : Table) (p : List Byte) (d : Byte) :
    (Reference.registerShift nn n log alog genpoly p d).length = n := by
  simp [Reference.registerShift]

/-- The tap through G[i] for the feedback symbol f: none when the feedback is the sentinel (rule R64). -/
def registerTap (nn : Nat) (log alog genpoly : Table) (f : Byte) (i : Nat) : Byte :=
  if (Table.entry log f.toNat).toNat = nn then 0
  else logMul nn alog (Table.entry log f.toNat).toNat (Table.entry genpoly i).toNat

theorem coeff_registerShift (nn : Nat) {n j : Nat} (hj : j < n) (log alog genpoly : Table)
    (p : List Byte) (d : Byte) :
    coeff (Reference.registerShift nn n log alog genpoly p d) j =
      (if j + 1 < n then coeff p (j + 1) else 0) ^^^
        registerTap nn log alog genpoly (d ^^^ coeff p 0) (n - 1 - j) :=
  coeff_map_range _ hj

theorem coeff_tapsApplied (t : EncoderTables) {n j : Nat} (hj : j + 1 < n) (p : List Byte) (d : Byte) :
    coeff (tapsApplied t n (feedbackOf t p d) p) (j + 1) =
      coeff p (j + 1) ^^^ registerTap t.nn t.log t.alog t.genpoly (d ^^^ coeff p 0) (n - 1 - j) := by
  have hsub : n - (j + 1) = n - 1 - j := by omega
  rw [tapsApplied, registerTap, feedbackOf, gfadd]
  split
  · rw [coeff_map_range _ hj, if_neg j.succ_ne_zero, gfadd, tapOf, hsub]
  · rw [if_pos (not_not.mp ‹_›)]
    exact BitVec.xor_zero.symm

theorem encodeStep_eq_registerShift (t : EncoderTables) {n : Nat} {p : List Byte} (d : Byte)
    (hn : 1 ≤ n) (hp : p.length = n) :
    encodeStep t n p d = Reference.registerShift t.nn n t.log t.alog t.genpoly p d := by
  have hlen := length_encodeStep t n p d hn hp
  refine eq_of_coeff_eq (by rw [hlen, length_registerShift]) fun j => ?_
  obtain hj | hj := Nat.lt_or_ge j n
  · rw [coeff_registerShift _ hj, encodeStep, coeff_append, List.length_drop,
      length_tapsApplied t n _ p hp, coeff_drop, Nat.add_comm 1 j]
    obtain hlt | rfl : j + 1 < n ∨ n = j + 1 := by omega
    · rw [if_pos (by omega), if_pos hlt, coeff_tapsApplied t hlt]
    · simp only [Nat.add_sub_cancel, Nat.lt_irrefl, if_false, Nat.sub_self, ite_not]
      exact BitVec.zero_xor.symm
  · rw [coeff_of_length_le (by omega), coeff_of_length_le (by rw [length_registerShift]; exact hj)]

theorem encodeRun_eq_register (t : EncoderTables) {n : Nat} (hn : 1 ≤ n) (ds : List Byte) :
    encodeRun t n ds = Reference.register t.nn n t.log t.alog t.genpoly ds := by
  have hfold : ∀ (ds p : List Byte), p.length = n → ds.foldl (encodeStep t n) p =
      ds.foldl (Reference.registerShift t.nn n t.log t.alog t.genpoly) p := by
    intro ds
    induction ds with
    | nil => exact fun _ _ => rfl
    | cons d ds ih =>
      intro p hp
      rw [List.foldl_cons, List.foldl_cons, ih _ (length_encodeStep t n p d hn hp),
        encodeStep_eq_registerShift t d hn hp]
  exact hfold ds _ List.length_replicate

/-- The register of the active configuration after the data symbols. -/
def State.register (s : State) (ds : List Byte) : List Byte :=
  Reference.register s.cfg.nn.toNat s.cfg.nroots.toNat s.log s.alog s.genpoly ds

theorem State.register_nil (s : State) : s.register [] = List.replicate s.cfg.nroots.toNat 0 := rfl

theorem State.register_append (s : State) (ds : List Byte) (d : Byte) :
    s.register (ds ++ [d]) = Reference.registerShift s.cfg.nn.toNat s.cfg.nroots.toNat s.log s.alog
      s.genpoly (s.register ds) d := by
  simp [State.register, Reference.register]

theorem State.length_register (s : State) (ds : List Byte) :
    (s.register ds).length = s.cfg.nroots.toNat := by
  induction ds using List.reverseRecOn with
  | nil => exact List.length_replicate
  | append_singleton ds d => rw [s.register_append, length_registerShift]

/-- PARITY after a completed ENCODE (rule R66). -/
theorem read_encoded_parity (hn : s.cfg.nroots.toNat ≠ 0) (j : Nat) :
    Memory.read (s.encoded ds).parity j =
      if j < s.cfg.nroots.toNat then (s.register ds)[j]? else Memory.read s.parity j := by
  have hrun : encodeRun s.encoderTables s.cfg.nroots.toNat ds = s.register ds :=
    encodeRun_eq_register s.encoderTables (by omega) ds
  rw [State.encoded, hrun, State.setErr_parity, State.writeParityAll_parity, Memory.read_writeList,
    s.length_register]
  simp

theorem entriesOf_eq {mem : Memory} {n : Nat} {l : List Byte} (hlen : l.length = n)
    (hread : ∀ j, j < n → Memory.read mem j = l[j]?) : Reference.entriesOf mem n = l := by
  refine List.ext_getElem (by simp [Reference.entriesOf, hlen]) fun j _ hj => ?_
  simp only [Reference.entriesOf, List.getElem_map, List.getElem_range, hread j (by omega),
    List.getElem?_eq_getElem hj, Option.getD_some]

/-- The codeword is the symbols read followed by the register (rule R67). -/
theorem codeword_encoded (hn : s.cfg.nroots.toNat ≠ 0)
    (hds : readSymbols s.cfg.nn.toNat s.data 0 s.cfg.k.toNat = .ok ds) :
    Reference.codeword s (s.encoded ds) = ds ++ s.register ds := by
  obtain ⟨hlen, hread⟩ := (readSymbols_ok_iff ..).mp hds
  have hdata : Reference.entriesOf s.data s.cfg.k.toNat = ds := by
    refine entriesOf_eq hlen fun j hj => ?_
    obtain ⟨d, hd, -, hget⟩ := hread j hj
    rw [hget, ← hd, Nat.zero_add]
  have hparity : Reference.entriesOf (s.encoded ds).parity s.cfg.nroots.toNat = s.register ds :=
    entriesOf_eq (s.length_register ds) fun j hj => by rw [read_encoded_parity hn, if_pos hj]
  rw [Reference.codeword, hdata, hparity]

/-- A symbol 0 leaves a register of zeros as it is when LOG[0] is the sentinel (rule R69). -/
theorem registerShift_zeros {nn : Nat} (n : Nat) {log : Table} (alog genpoly : Table)
    (hlog : (Table.entry log 0).toNat = nn) :
    Reference.registerShift nn n log alog genpoly (List.replicate n 0) 0 = List.replicate n 0 := by
  refine eq_of_coeff_eq (by simp [Reference.registerShift]) fun j => ?_
  rw [coeff_replicate_zero]
  obtain hj | hj := Nat.lt_or_ge j n
  · have htap : registerTap nn log alog genpoly 0#8 (n - 1 - j) = 0 := if_pos hlog
    rw [coeff_registerShift _ hj, coeff_replicate_zero, coeff_replicate_zero, ite_self,
      BitVec.xor_self, htap, BitVec.xor_self]
    rfl
  · exact coeff_of_length_le (by rw [length_registerShift]; exact hj)

theorem State.register_zeros_append (hlog : (Table.entry s.log 0).toNat = s.cfg.nn.toNat) (q : Nat) :
    s.register (List.replicate q 0 ++ ds) = s.register ds := by
  induction q with
  | zero => rfl
  | succ q ih =>
    rw [← ih, State.register, Reference.register, List.replicate_succ, List.cons_append, List.foldl_cons,
      registerShift_zeros _ _ _ hlog]
    rfl

/-- A completed ENCODE writes ERR and the first nroots entries of PARITY (rule R66). -/
theorem exec_encode_frame (h : exec .encode s = .next t) :
    t = { s with parity := t.parity, status := { s.status with err := 0 } } ∧
    ∀ j, s.cfg.nroots.toNat ≤ j → Memory.read t.parity j = Memory.read s.parity j := by
  obtain ⟨-, ⟨-, rfl⟩ | ⟨hn, ds, -, rfl⟩⟩ := exec_encode_next h
  · exact ⟨rfl, fun j _ => rfl⟩
  · exact ⟨rfl, fun j hj => by rw [read_encoded_parity hn, if_neg (Nat.not_lt.mpr hj)]⟩

/-! ## Polynomial products, coefficient by coefficient -/

theorem foldl_xor_eq (f : Nat → Byte) (l : List Nat) (a : Byte) :
    l.foldl (fun acc j => acc ^^^ f j) a = a ^^^ l.foldl (fun acc j => acc ^^^ f j) 0 := by
  induction l generalizing a with
  | nil => exact BitVec.xor_zero.symm
  | cons j l ih =>
    rw [List.foldl_cons, List.foldl_cons, ih, ih (0 ^^^ f j)]
    simp [BitVec.xor_assoc]

/-- The codeword of rule R67 with index = exponent: the last parity symbol is the constant term. -/
theorem coeff_reverse_append (ds p : List Byte) (i : Nat) :
    coeff (ds ++ p).reverse i =
      if i < p.length then coeff p (p.length - 1 - i) else coeff ds.reverse (i - p.length) := by
  rw [List.reverse_append, coeff_append, List.length_reverse]
  split
  · rw [coeff_reverse ‹_›]
  · rfl

section Product

variable (nn : Nat) (log alog : Table)

theorem gfmul_comm (a b : Byte) : gfmul nn log alog a b = gfmul nn log alog b a := by
  simp only [gfmul, logMul, or_comm, Nat.add_comm]

/-- The coefficient of x^i that the product of a and b sums up, whatever its length. -/
def convolution (a b : List Byte) (i : Nat) : Byte :=
  (List.range (i + 1)).foldl
    (fun acc j => acc ^^^ gfmul nn log alog (coeff a j) (coeff b (i - j))) 0

theorem length_polyMul (a b : List Byte) :
    (Reference.polyMul nn log alog a b).length = a.length + b.length - 1 := by
  simp [Reference.polyMul]

theorem coeff_polyMul (a b : List Byte) (i : Nat) :
    coeff (Reference.polyMul nn log alog a b) i =
      if i < a.length + b.length - 1 then convolution nn log alog a b i else 0 := by
  split
  · exact coeff_map_range _ ‹_›
  · exact coeff_of_length_le (by rw [length_polyMul]; omega)

theorem convolution_nil (b : List Byte) (i : Nat) : convolution nn log alog [] b i = 0 := by
  simp [convolution, coeff]

theorem convolution_cons (f : Byte) (a b : List Byte) (i : Nat) :
    convolution nn log alog (f :: a) b i =
      gfmul nn log alog f (coeff b i) ^^^ (if 0 < i then convolution nn log alog a b (i - 1) else 0) := by
  rw [convolution, List.range_succ_eq_map, List.foldl_cons, List.foldl_map, foldl_xor_eq]
  cases i with
  | zero => simp [coeff]
  | succ i => simp [coeff, convolution]

theorem coeff_polyMul_nil (b : List Byte) (i : Nat) :
    coeff (Reference.polyMul nn log alog [] b) i = 0 := by
  rw [coeff_polyMul, convolution_nil, ite_self]

/-- A new constant term f adds f times the other factor and shifts the rest up by one. -/
theorem coeff_polyMul_cons (f : Byte) (a : List Byte) {b : List Byte} (hb : 1 ≤ b.length) (i : Nat) :
    coeff (Reference.polyMul nn log alog (f :: a) b) i =
      gfmul nn log alog f (coeff b i) ^^^ coeff (0 :: Reference.polyMul nn log alog a b) i := by
  rw [coeff_polyMul, convolution_cons, coeff_zero_cons, coeff_polyMul, List.length_cons]
  obtain hi | hi := Nat.lt_or_ge i (a.length + b.length)
  · rw [if_pos (by omega)]
    split
    · rw [if_pos (by omega)]
    · rfl
  · rw [if_neg (by omega), if_neg (show ¬ i - 1 < _ by omega), ite_self, coeff_of_length_le (by omega)]
    simp

/-- One shift of the register takes the codeword C to x * C + f * g, f being the feedback symbol. -/
theorem polyMul_cons_eq_codeword {g p p' ds q : List Byte} {d f : Byte} (hp : 1 ≤ p.length)
    (hp' : p'.length = p.length) (hg : g.length = p.length + 1) (hf : f = d ^^^ coeff p 0)
    (hmonic : gfmul nn log alog f (coeff g p.length) = f)
    (hshift : ∀ j, j < p.length → coeff p' j = (if j + 1 < p.length then coeff p (j + 1) else 0) ^^^
      gfmul nn log alog f (coeff g (p.length - 1 - j)))
    (hq : q.length = ds.length) (hmul : Reference.polyMul nn log alog q g = (ds ++ p).reverse) :
    Reference.polyMul nn log alog (f :: q) g = (ds ++ [d] ++ p').reverse := by
  refine eq_of_coeff_eq (by simp [length_polyMul]; omega) fun i => ?_
  rw [coeff_polyMul_cons nn log alog _ _ (by omega), hmul, coeff_zero_cons, coeff_reverse_append,
    coeff_reverse_append, hp', List.reverse_append, coeff_append]
  obtain hi | rfl | hi : i < p.length ∨ i = p.length ∨ p.length < i := by omega
  · rw [if_pos hi, hshift _ (by omega), show p.length - 1 - (p.length - 1 - i) = i by omega,
      BitVec.xor_comm, if_pos (show i - 1 < p.length by omega)]
    congr 1
    obtain rfl | hpos := Nat.eq_zero_or_pos i
    · rw [if_neg (Nat.lt_irrefl 0), if_neg (by omega)]
    · rw [if_pos hpos, if_pos (by omega), show p.length - 1 - (i - 1) = p.length - 1 - i + 1 by omega]
  · rw [hmonic, if_pos (by omega), if_pos (by omega), if_neg (Nat.lt_irrefl _), Nat.sub_self, Nat.sub_self,
      hf, BitVec.xor_assoc, BitVec.xor_self]
    exact BitVec.xor_zero
  · rw [coeff_of_length_le (c := g) (by omega), if_pos (by omega), if_neg (by omega), if_neg (by omega),
      if_neg (by simp; omega), List.length_reverse, List.length_singleton, Nat.sub_right_comm]
    simp

end Product

theorem evalHighFirst_reverse_eq (nn : Nat) (log alog : Table) (c : List Byte) (x : Byte) :
    Reference.evalHighFirst nn log alog c.reverse x =
      gfmul nn log alog (Reference.evalHighFirst nn log alog c.tail.reverse x) x ^^^ coeff c 0 := by
  cases c with
  | nil => simp [Reference.evalHighFirst, coeff]
  | cons a c => exact evalHighFirst_reverse_cons nn log alog a c x

theorem evalHighFirst_eq_zero (nn : Nat) (log alog : Table) {c : List Byte} (hc : ∀ k, coeff c k = 0)
    (x : Byte) : Reference.evalHighFirst nn log alog c.reverse x = 0 := by
  induction c with
  | nil => rfl
  | cons a c ih =>
    have ha : a = 0 := hc 0
    rw [evalHighFirst_reverse_cons, ih fun k => hc (k + 1), ha]
    simp

/-! ## The register in an accepted field (rules R64, R65 and R68) -/

section Register

variable {m poly : Nat} {log alog : Table} (hm : 1 ≤ m) (h : buildField m poly = some (log, alog))
  (hm8 : m ≤ 8)
include hm h hm8

theorem gfmul_one_right {a : Byte} (ha : a.toNat ≤ 2 ^ m - 1) : gfmul (2 ^ m - 1) log alog a 1 = a := by
  obtain rfl | ⟨i, hi⟩ := eq_zero_or_toNat_eq_power hm h ha
  · exact gfmul_zero_left _ _ _ _
  · apply BitVec.eq_of_toNat_eq
    rw [toNat_gfmul_power hm h hm8 (j := 0) hi rfl, Nat.add_zero, hi]

/-- The tap through the logarithm of a nonzero coefficient is the product with it. -/
theorem registerTap_eq_gfmul {genpoly : Table} {f c : Byte} {i : Nat} (hf : f.toNat ≤ 2 ^ m - 1)
    (hc : c.toNat ≤ 2 ^ m - 1) (hgen : Table.entry genpoly i = Table.entry log c.toNat)
    (hlt : (Table.entry genpoly i).toNat < 2 ^ m - 1) :
    registerTap (2 ^ m - 1) log alog genpoly f i = gfmul (2 ^ m - 1) log alog f c := by
  obtain ⟨-, hsentinel⟩ := toNat_entry_log_le hm h hm8 hf
  by_cases hf0 : f = 0#8
  · rw [registerTap, if_pos (hsentinel.mpr (congrArg BitVec.toNat hf0)), hf0, gfmul_zero_left]
    rfl
  · have hlog : (Table.entry log f.toNat).toNat ≠ 2 ^ m - 1 :=
      fun hx => hf0 (BitVec.eq_of_toNat_eq (hsentinel.mp hx))
    rw [registerTap, if_neg hlog, logMul_log hm h hm8 hf0 hf, Nat.mod_eq_of_lt hlt, hgen,
      entry_alog_log_toNat hm h hm8 hc]

/-! ## Evaluation of a product (rule R68) -/

theorem toNat_evalHighFirst_le {c : List Byte} (hc : (coeff c 0).toNat ≤ 2 ^ m - 1) (x : Byte) :
    (Reference.evalHighFirst (2 ^ m - 1) log alog c.reverse x).toNat ≤ 2 ^ m - 1 := by
  rw [evalHighFirst_reverse_eq]
  exact toNat_xor_le (toNat_gfmul_le hm h hm8 _ _) hc

/-- Evaluation is linear in the coefficients. -/
theorem evalHighFirst_linear {a b c : List Byte} {f x : Byte} (hf : f.toNat ≤ 2 ^ m - 1)
    (hx : x.toNat ≤ 2 ^ m - 1) (ha : ∀ k, (coeff a k).toNat ≤ 2 ^ m - 1)
    (hb : ∀ k, (coeff b k).toNat ≤ 2 ^ m - 1) (hac : a.length ≤ c.length) (hbc : b.length ≤ c.length)
    (hc : ∀ k, coeff c k = gfmul (2 ^ m - 1) log alog (coeff a k) f ^^^ coeff b k) :
    Reference.evalHighFirst (2 ^ m - 1) log alog c.reverse x =
      gfmul (2 ^ m - 1) log alog (Reference.evalHighFirst (2 ^ m - 1) log alog a.reverse x) f ^^^
        Reference.evalHighFirst (2 ^ m - 1) log alog b.reverse x := by
  induction c generalizing a b with
  | nil =>
    obtain rfl := List.eq_nil_of_length_eq_zero (Nat.le_zero.mp hac)
    obtain rfl := List.eq_nil_of_length_eq_zero (Nat.le_zero.mp hbc)
    simp [Reference.evalHighFirst]
  | cons v c ih =>
    have ih := ih (a := a.tail) (b := b.tail) (fun k => coeff_tail a k ▸ ha (k + 1))
      (fun k => coeff_tail b k ▸ hb (k + 1)) (by simp at hac ⊢; omega) (by simp at hbc ⊢; omega)
      (fun k => by rw [coeff_tail, coeff_tail]; exact hc (k + 1))
    have hea := toNat_evalHighFirst_le hm h hm8 (c := a.tail) (coeff_tail a 0 ▸ ha 1) x
    have heb := toNat_evalHighFirst_le hm h hm8 (c := b.tail) (coeff_tail b 0 ▸ hb 1) x
    have hmul := toNat_gfmul_le hm h hm8
    rw [evalHighFirst_reverse_eq (c := v :: c), evalHighFirst_reverse_eq (c := a),
      evalHighFirst_reverse_eq (c := b), hc 0, List.tail_cons, ih]
    generalize Reference.evalHighFirst (2 ^ m - 1) log alog a.tail.reverse x = ea at hea
    rw [gfmul_xor_left hm h hm8 (hmul _ _) heb hx, gfmul_xor_left hm h hm8 (hmul _ _) (ha 0) hf,
      gfmul_right_comm hm h hm8 hea hf hx]
    ac_rfl

theorem toNat_coeff_polyMul_le {b : List Byte} (hb : 1 ≤ b.length) (a : List Byte) (i : Nat) :
    (coeff (Reference.polyMul (2 ^ m - 1) log alog a b) i).toNat ≤ 2 ^ m - 1 := by
  induction a generalizing i with
  | nil =>
    rw [coeff_polyMul_nil]
    exact Nat.zero_le _
  | cons f a ih =>
    rw [coeff_polyMul_cons _ _ _ _ _ hb]
    exact toNat_xor_le (toNat_gfmul_le hm h hm8 _ _) (toNat_coeff_zero_cons_le ih i)

/-- A product vanishes where its second factor does. -/
theorem evalHighFirst_polyMul_eq_zero {a b : List Byte} {x : Byte} (ha : ∀ f ∈ a, f.toNat ≤ 2 ^ m - 1)
    (hx : x.toNat ≤ 2 ^ m - 1) (hb : ∀ f ∈ b, f.toNat ≤ 2 ^ m - 1) (hlen : 1 ≤ b.length)
    (hroot : Reference.evalHighFirst (2 ^ m - 1) log alog b.reverse x = 0) :
    Reference.evalHighFirst (2 ^ m - 1) log alog
      (Reference.polyMul (2 ^ m - 1) log alog a b).reverse x = 0 := by
  induction a with
  | nil => exact evalHighFirst_eq_zero _ _ _ (coeff_polyMul_nil _ _ _ b) x
  | cons f a ih =>
    obtain ⟨hf, ha⟩ := List.forall_mem_cons.mp ha
    rw [evalHighFirst_linear hm h hm8 (a := b) (b := 0 :: Reference.polyMul (2 ^ m - 1) log alog a b) hf hx
      (toNat_coeff_le hb) (toNat_coeff_zero_cons_le (toNat_coeff_polyMul_le hm h hm8 hlen a))]
    · rw [hroot, evalHighFirst_reverse_cons, ih ha]
      simp
    · rw [length_polyMul, List.length_cons]
      omega
    · rw [length_polyMul, List.length_cons, length_polyMul, List.length_cons]
      omega
    · intro k
      rw [coeff_polyMul_cons _ _ _ _ _ hlen, gfmul_comm]

end Register

/-! ## The register of a valid configuration (rules R67 and R68) -/

/-- Products read only entries of the tables. -/
theorem gfmul_congr {log log' alog alog' : Table} (hlog : Table.entry log = Table.entry log')
    (halog : Table.entry alog = Table.entry alog') (nn : Nat) :
    gfmul nn log alog = gfmul nn log' alog' := by
  funext a b
  simp only [gfmul, logMul, hlog, halog]

theorem polyMul_congr {log log' alog alog' : Table} (hlog : Table.entry log = Table.entry log')
    (halog : Table.entry alog = Table.entry alog') (nn : Nat) :
    Reference.polyMul nn log alog = Reference.polyMul nn log' alog' := by
  funext a b
  simp only [Reference.polyMul, gfmul_congr hlog halog]

theorem registerTap_congr {log log' alog alog' : Table} (hlog : Table.entry log = Table.entry log')
    (halog : Table.entry alog = Table.entry alog') (nn : Nat) (genpoly : Table) :
    registerTap nn log alog genpoly = registerTap nn log' alog' genpoly := by
  funext f i
  simp only [registerTap, logMul, hlog, halog]

/-- No interior coefficient of the active generator is 0 (the condition of rule R68). -/
def State.InteriorNonzero (s : State) : Prop :=
  ∀ j, 1 ≤ j → j < s.cfg.nroots.toNat → (Table.entry s.genpoly j).toNat < s.cfg.nn.toNat

theorem length_generatorOf (s : State) : (Reference.generatorOf s).length = s.cfg.nroots.toNat + 1 := by
  simp [Reference.generatorOf]

namespace ValidTables

variable {log alog : Table} (ht : ValidTables s log alog)
include ht

theorem gfmul_eq : gfmul s.cfg.nn.toNat s.log s.alog = gfmul (2 ^ s.cfg.m.toNat - 1) log alog := by
  rw [gfmul_congr ht.log_eq ht.alog_eq, ht.nn_eq]

theorem toNat_gfmul_le (a b : Byte) : (gfmul s.cfg.nn.toNat s.log s.alog a b).toNat ≤ s.cfg.nn.toNat := by
  rw [ht.gfmul_eq, ht.nn_eq]
  exact Machine.toNat_gfmul_le ht.width_pos ht.built ht.width_le a b

theorem toNat_xor_le {a b : Byte} (ha : a.toNat ≤ s.cfg.nn.toNat) (hb : b.toNat ≤ s.cfg.nn.toNat) :
    (a ^^^ b).toNat ≤ s.cfg.nn.toNat := by
  rw [ht.nn_eq] at *
  exact Machine.toNat_xor_le ha hb

/-- The generator is monic. -/
theorem gfmul_generatorOf_last {f : Byte} (hf : f.toNat ≤ s.cfg.nn.toNat) :
    gfmul s.cfg.nn.toNat s.log s.alog f (coeff (Reference.generatorOf s) s.cfg.nroots.toNat) = f := by
  rw [ht.nn_eq] at hf
  rw [ht.gfmul_eq, ht.generatorOf_eq, coeff_rootProduct_last]
  exact gfmul_one_right ht.width_pos ht.built ht.width_le hf

/-- The constant term of the generator is not 0, so GENPOLY[0] is below the sentinel (rule R56). -/
theorem toNat_genpoly_lt (hint : s.InteriorNonzero) {i : Nat} (hi : i < s.cfg.nroots.toNat) :
    (Table.entry s.genpoly i).toNat < s.cfg.nn.toNat := by
  obtain rfl | hpos := Nat.eq_zero_or_pos i
  · obtain ⟨hm, hm8, hb, hnn, -, -, hgen⟩ := ht
    obtain ⟨hle, hsentinel⟩ := toNat_entry_log_le hm hb hm8 (toNat_coeff_le
      (toNat_rootProduct_le hm hb hm8 s.cfg.fcr.toNat s.cfg.prim.toNat s.cfg.nroots.toNat) 0)
    rw [hgen, if_pos (Nat.zero_le _), hnn]
    refine Nat.lt_of_le_of_ne hle fun heq => ?_
    exact coeff_rootProduct_zero_ne hm hb hm8 _ _ _ (BitVec.eq_of_toNat_eq (hsentinel.mp heq))
  · exact hint i hpos hi

/-- With no zero coefficient every tap multiplies by its coefficient of the generator (rule R68). -/
theorem registerTap_eq (hint : s.InteriorNonzero) {f : Byte} (hf : f.toNat ≤ s.cfg.nn.toNat) {i : Nat}
    (hi : i < s.cfg.nroots.toNat) :
    registerTap s.cfg.nn.toNat s.log s.alog s.genpoly f i =
      gfmul s.cfg.nn.toNat s.log s.alog f (coeff (Reference.generatorOf s) i) := by
  have hlt := ht.toNat_genpoly_lt hint hi
  have hgen := ht.genpoly_eq i
  rw [if_pos hi.le] at hgen
  rw [ht.gfmul_eq, ht.generatorOf_eq, registerTap_congr ht.log_eq ht.alog_eq]
  rw [ht.nn_eq] at hf hlt ⊢
  exact registerTap_eq_gfmul ht.width_pos ht.built ht.width_le hf
    (toNat_coeff_le (toNat_rootProduct_le ht.width_pos ht.built ht.width_le _ _ _) i) hgen hlt

/-- A shift adds the feedback symbol times the generator, its leading term aside. -/
theorem coeff_registerShift (hint : s.InteriorNonzero) {p : List Byte} {d : Byte}
    (hf : (d ^^^ coeff p 0).toNat ≤ s.cfg.nn.toNat) {j : Nat} (hj : j < s.cfg.nroots.toNat) :
    coeff (Reference.registerShift s.cfg.nn.toNat s.cfg.nroots.toNat s.log s.alog s.genpoly p d) j =
      (if j + 1 < s.cfg.nroots.toNat then coeff p (j + 1) else 0) ^^^
        gfmul s.cfg.nn.toNat s.log s.alog (d ^^^ coeff p 0)
          (coeff (Reference.generatorOf s) (s.cfg.nroots.toNat - 1 - j)) := by
  rw [Machine.coeff_registerShift _ hj, ht.registerTap_eq hint hf (by omega)]

/-- The register holds elements of the field. -/
theorem toNat_coeff_register_le (hint : s.InteriorNonzero) {ds : List Byte}
    (hds : ∀ d ∈ ds, d.toNat ≤ s.cfg.nn.toNat) (j : Nat) :
    (coeff (s.register ds) j).toNat ≤ s.cfg.nn.toNat := by
  induction ds using List.reverseRecOn generalizing j with
  | nil =>
    rw [State.register_nil, coeff_replicate_zero]
    exact Nat.zero_le _
  | append_singleton ds d ih =>
    obtain ⟨hds, hd⟩ := List.forall_mem_append.mp hds
    have ih := ih hds
    have hf := ht.toNat_xor_le (hd d List.mem_cons_self) (ih 0)
    obtain hj | hj := Nat.lt_or_ge j s.cfg.nroots.toNat
    · rw [State.register_append, ht.coeff_registerShift hint hf hj]
      refine ht.toNat_xor_le ?_ (ht.toNat_gfmul_le _ _)
      split
      · exact ih _
      · exact Nat.zero_le _
    · rw [coeff_of_length_le (by rw [State.length_register]; exact hj)]
      exact Nat.zero_le _

/-- The symbols followed by the register are a multiple of the generator; the quotient's coefficients are the
feedback symbols (rule R68). -/
theorem exists_polyMul_eq_codeword (hint : s.InteriorNonzero) (hn : s.cfg.nroots.toNat ≠ 0)
    {ds : List Byte} (hds : ∀ d ∈ ds, d.toNat ≤ s.cfg.nn.toNat) :
    ∃ q : List Byte, q.length = ds.length ∧ (∀ a ∈ q, a.toNat ≤ s.cfg.nn.toNat) ∧
      Reference.polyMul s.cfg.nn.toNat s.log s.alog q (Reference.generatorOf s) =
        (ds ++ s.register ds).reverse := by
  induction ds using List.reverseRecOn with
  | nil =>
    refine ⟨[], rfl, by simp, eq_of_coeff_eq ?_ fun i => ?_⟩
    · simp [length_polyMul, length_generatorOf, State.length_register]
    · rw [coeff_polyMul_nil, State.register_nil, List.nil_append, List.reverse_replicate,
        coeff_replicate_zero]
  | append_singleton ds d ih =>
    obtain ⟨hds', hd⟩ := List.forall_mem_append.mp hds
    obtain ⟨q, hlen, hq, hmul⟩ := ih hds'
    have hp := s.length_register ds
    have hf := ht.toNat_xor_le (hd d List.mem_cons_self) (ht.toNat_coeff_register_le hint hds' 0)
    refine ⟨(d ^^^ coeff (s.register ds) 0) :: q, by simp [hlen],
      List.forall_mem_cons.mpr ⟨hf, hq⟩, ?_⟩
    refine polyMul_cons_eq_codeword _ _ _ (by omega) ?_ ?_ rfl ?_ (fun j hj => ?_) hlen hmul
    · rw [hp, State.length_register]
    · rw [hp, length_generatorOf]
    · rw [hp, ht.gfmul_generatorOf_last hf]
    · rw [hp] at hj ⊢
      rw [State.register_append, ht.coeff_registerShift hint hf hj]

/-- LOG[0] is the sentinel (rule R48). -/
theorem toNat_log_zero : (Table.entry s.log 0).toNat = s.cfg.nn.toNat := by
  obtain ⟨-, hsentinel⟩ := toNat_entry_log_le ht.width_pos ht.built ht.width_le (Nat.zero_le _)
  rw [ht.log_eq, ht.nn_eq, hsentinel]

/-- A multiple of the generator vanishes at its roots. -/
theorem evalHighFirst_polyMul_generatorOf {q : List Byte} (hq : ∀ a ∈ q, a.toNat ≤ s.cfg.nn.toNat)
    {i : Nat} (hi : i < s.cfg.nroots.toNat) :
    Reference.evalHighFirst s.cfg.nn.toNat s.log s.alog
      (Reference.polyMul s.cfg.nn.toNat s.log s.alog q (Reference.generatorOf s)).reverse
      (Reference.rootOf s i) = 0 := by
  rw [ht.nn_eq] at hq
  rw [evalHighFirst_congr ht.log_eq ht.alog_eq, polyMul_congr ht.log_eq ht.alog_eq, ht.generatorOf_eq,
    Reference.rootOf, ht.alog_eq, ht.nn_eq]
  exact evalHighFirst_polyMul_eq_zero ht.width_pos ht.built ht.width_le hq
    (toNat_entry_alog_mod_le ht.width_pos ht.built ht.width_le _)
    (toNat_rootProduct_le ht.width_pos ht.built ht.width_le _ _ _)
    (by rw [length_rootProduct]; omega)
    (evalHighFirst_rootProduct ht.width_pos ht.built ht.width_le hi)

end ValidTables

end Sys2Proof.Machine

/-! ## The obligations of the encoder family -/

namespace Sys2Proof

open Sys2Proof.Machine

/-- Settles O38: the check for nroots = 0 stands before the first read. -/
theorem encodeWithoutRootsOnlyClearsErr : Obligations.EncodeWithoutRootsOnlyClearsErr :=
  fun _ hv hn => exec_encode_without_roots hv (congrArg BitVec.toNat hn)

/-- Settles O37: the symbols are read in ascending order, so those that pass leave the fault to the first
that does not. -/
theorem encodeFaultsOnTheFirstViolatedPrecondition :
    Obligations.EncodeFaultsOnTheFirstViolatedPrecondition := by
  refine ⟨fun s hv => exec_encode_of_invalid hv, fun s i hv hn hi hchecked => ⟨fun h => ?_, fun d h hd => ?_⟩⟩
  · exact exec_encode_of_first_fault hv hn hi hchecked fun _ => readSymbols_of_unwritten h
  · exact exec_encode_of_first_fault hv hn hi hchecked fun _ => readSymbols_of_range h hd

/-- Settles O41: a completed ENCODE has its frame, and a fault is recorded in the state before it. -/
theorem encodeStaysWithinItsConfinement : Obligations.EncodeStaysWithinItsConfinement := by
  refine ⟨fun s t h => ?_, fun s r h => ?_⟩
  · obtain ⟨ht, hparity⟩ := exec_encode_frame h
    refine ⟨?_, hparity⟩
    rw [ht]
  · rw [h]
    exact ⟨rfl, rfl, fun _ _ => rfl⟩

/-- Settles O39: with the symbols readable ENCODE completes, and its loop is the shift register. -/
theorem encodeWritesTheShiftRegister : Obligations.EncodeWritesTheShiftRegister := by
  intro s ds hv hn0 hlen hread
  have hn : s.cfg.nroots.toNat ≠ 0 := fun h0 => hn0 (BitVec.eq_of_toNat_eq h0)
  have hds : readSymbols s.cfg.nn.toNat s.data 0 s.cfg.k.toNat = .ok ds := by
    refine (readSymbols_ok_iff ..).mpr ⟨hlen, fun j hj => ?_⟩
    obtain ⟨hd, hle⟩ := hread j (by omega)
    exact ⟨_, by rwa [Nat.zero_add], hle, List.getElem?_eq_getElem _⟩
  have hnext := exec_encode_of_ok hv hn hds
  obtain ⟨hframe, hbeyond⟩ := exec_encode_frame hnext
  exact ⟨_, hnext, hframe, fun j hj => by rw [read_encoded_parity hn, if_pos hj]; rfl, hbeyond⟩

/-- Settles O40: equal symbols and tables give equal registers, whatever else the states hold. -/
theorem encodeDependsOnlyOnWhatItReads : Obligations.EncodeDependsOnlyOnWhatItReads := by
  intro s₁ s₂ t₁ hv hnn hnroots hk hlog halog hgen hdata h
  refine ⟨?_, exec_encode_frame h⟩
  obtain ⟨hv₁, ⟨hn, -⟩ | ⟨hn, ds, hds, rfl⟩⟩ := exec_encode_next h
  · exact ⟨_, exec_encode_without_roots (hv ▸ hv₁) (hnroots ▸ hn), fun j hj => by omega⟩
  · have hds₂ : readSymbols s₂.cfg.nn.toNat s₂.data 0 s₂.cfg.k.toNat = .ok ds := by
      rw [← hnn, ← hk, ← hds]
      exact (readSymbols_congr fun j _ hj => hdata j (by omega)).symm
    have hregister : s₂.register ds = s₁.register ds := by
      simp only [State.register, hnn, hnroots, hlog, halog, hgen]
    refine ⟨_, exec_encode_of_ok (hv ▸ hv₁) (hnroots ▸ hn) hds₂, fun j hj => ?_⟩
    rw [read_encoded_parity hn, read_encoded_parity (hnroots ▸ hn), ← hnroots, if_pos hj, if_pos hj,
      hregister]

/-- Settles O42: while the register is zero a symbol 0 feeds back the sentinel, and nothing is added. -/
theorem leadingZeroSymbolsDoNotChangeTheParity : Obligations.LeadingZeroSymbolsDoNotChangeTheParity := by
  intro s₁ s₂ t₁ q hs hv hnn hnroots hlog halog hgen hk hzero hrest h
  obtain ⟨hv₁, ⟨hn, -⟩ | ⟨hn, ds, hds, rfl⟩⟩ := exec_encode_next h
  · exact ⟨_, exec_encode_without_roots hv (hnroots ▸ hn), fun j hj => by omega⟩
  · obtain ⟨log, alog, ht⟩ := hs.exists_validTables hv₁
    have hds₂ : readSymbols s₂.cfg.nn.toNat s₂.data 0 s₂.cfg.k.toNat = .ok (List.replicate q 0 ++ ds) := by
      rw [← hnn, hk]
      exact readSymbols_zeros_append hds hzero hrest
    have hregister : s₂.register (List.replicate q 0 ++ ds) = s₁.register ds := by
      rw [State.register_zeros_append (hlog ▸ hnn ▸ ht.toNat_log_zero)]
      simp only [State.register, hnn, hnroots, hlog, halog, hgen]
    refine ⟨_, exec_encode_of_ok hv (hnroots ▸ hn) hds₂, fun j hj => ?_⟩
    rw [read_encoded_parity hn, read_encoded_parity (hnroots ▸ hn), ← hnroots, if_pos hj, if_pos hj,
      hregister]

/-- Settles O43: each shift takes the codeword C to x * C + f * g, f the feedback symbol, so the feedback
symbols are the coefficients of the quotient. -/
theorem theCodewordIsAMultipleOfTheGenerator : Obligations.TheCodewordIsAMultipleOfTheGenerator := by
  intro s t hs hn0 hint h
  obtain ⟨hv, ⟨hn, -⟩ | ⟨hn, ds, hds, rfl⟩⟩ := exec_encode_next h
  · exact absurd (BitVec.eq_of_toNat_eq hn) hn0
  · obtain ⟨log, alog, ht⟩ := hs.exists_validTables hv
    obtain ⟨hlen, -⟩ := (readSymbols_ok_iff ..).mp hds
    rw [codeword_encoded hn hds, ← hlen]
    exact ht.exists_polyMul_eq_codeword hint hn (toNat_le_of_readSymbols hds)

/-- Settles O44: the codeword is a multiple of the generator, which vanishes at every root. -/
theorem theCodewordVanishesAtTheRoots : Obligations.TheCodewordVanishesAtTheRoots := by
  intro s t hs hn0 hint h i hi
  obtain ⟨q, -, hq, hmul⟩ := theCodewordIsAMultipleOfTheGenerator s t hs hn0 hint h
  obtain ⟨hv, -⟩ := exec_encode_next h
  obtain ⟨log, alog, ht⟩ := hs.exists_validTables hv
  rw [← List.reverse_reverse (Reference.codeword s t), ← hmul]
  exact ht.evalHighFirst_polyMul_generatorOf hq hi

end Sys2Proof

/-! # Proofs: the family of INIT and the control accesses (43_initialize_and_control.md) -/

namespace Sys2Proof.Machine

variable {s t : State}

/-! ## The address map by number (rule R31) -/

/-- The word addresses rule R31 gives each target. -/
def Target.Covers : Target → Nat → Prop
  | .cmd, n => n = 0x000
  | .status, n => n = 0x001
  | .param r, n => n = r.waddr.toNat
  | .cfg r, n => n = r.waddr.toNat
  | .log x, n => n = 0x100 + x.toNat
  | .alog i, n => n = 0x200 + i.toNat
  | .genpoly j, n => n = 0x300 + j.toNat
  | .data i, n => n = 0x400 + i.toNat
  | .parity j, n => n = 0x500 + j.toNat
  | .reserved, n => 0x002 ≤ n ∧ n ≤ 0x003 ∨ 0x00A ≤ n ∧ n ≤ 0x00F ∨ 0x019 ≤ n ∧ n ≤ 0x0FF ∨ 0x600 ≤ n

theorem toNat_regionOf (a : WAddr) : (regionOf a).toNat = a.toNat / 256 := by
  rw [regionOf, BitVec.extractLsb'_toNat, Nat.shiftRight_eq_div_pow, Nat.mod_eq_of_lt (by omega)]

theorem toNat_entryIndex (a : WAddr) : (entryIndex a).toNat = a.toNat % 256 := by
  rw [entryIndex, BitVec.extractLsb'_toNat, Nat.shiftRight_zero]

theorem controlTarget_covers {n : Nat} (hn : n < 256) : (controlTarget n).Covers n := by
  unfold controlTarget
  split
  -- The last line of the map: no listed register.
  case h_18 =>
    simp only [imp_false] at *
    rw [Target.Covers]
    omega
  all_goals rfl

/-- The address map leads each address to a target that covers it. -/
theorem targetOf_covers (a : WAddr) : (targetOf a).Covers a.toNat := by
  have hregion := toNat_regionOf a
  have hindex := toNat_entryIndex a
  unfold targetOf
  split
  -- Region 0, the control registers.
  case h_1 =>
    have hlow : a.toNat < 256 := by omega
    rw [hindex, Nat.mod_eq_of_lt hlow]
    exact controlTarget_covers hlow
  -- No listed region.
  case h_7 =>
    simp only [imp_false] at *
    rw [Target.Covers]
    omega
  all_goals
    rw [Target.Covers]
    omega

theorem CfgReg.waddr_bounds (r : CfgReg) : 0x010 ≤ r.waddr.toNat ∧ r.waddr.toNat ≤ 0x018 := by
  cases r <;> decide

/-! ## What a read answers (rule R85) -/

theorem zext32_eq_ofNat {n : Nat} (v : BitVec n) : zext32 v = BitVec.ofNat 32 v.toNat :=
  (BitVec.ofNat_toNat ..).symm

theorem Status.busWord_eq_ofNat (st : Status) : st.busWord =
    BitVec.ofNat 32 (16 * st.err.toNat + 2 * st.iprimValid.toNat + st.valid.toNat) := by
  obtain ⟨valid, iprimValid, err⟩ := st
  revert valid iprimValid err
  decide

/-- The model's read is the case list of rule R85. -/
theorem busRead_eq_reference (s : State) (a : WAddr) : busRead s a = Reference.busRead s a := by
  have hcovers := targetOf_covers a
  unfold busRead
  cases ht : targetOf a <;> rw [ht, Target.Covers] at hcovers
  case cmd => simp [Reference.busRead, hcovers]
  case status => simp [Reference.busRead, hcovers, Status.busWord_eq_ofNat]
  case param r =>
    cases r <;> simp [Reference.busRead, hcovers, zext32_eq_ofNat, ParamReg.waddr, Params.field]
  case cfg r =>
    cases r <;> simp [Reference.busRead, hcovers, zext32_eq_ofNat, CfgReg.waddr, cfgBusValue]
  case log | alog | genpoly =>
    simp (disch := omega) only [Reference.busRead, hcovers, if_neg, if_pos, Nat.add_sub_cancel_left,
      tableBusValue, zext32_eq_ofNat]
  case data i =>
    cases hread : Memory.read s.data i.toNat <;>
      simp (disch := omega) only [Reference.busRead, hcovers, if_neg, if_pos, Nat.add_sub_cancel_left,
        bufferBusValue, hread, zext32_eq_ofNat]
  case parity j =>
    cases hread : Memory.read s.parity j.toNat <;>
      simp (disch := omega) only [Reference.busRead, hcovers, if_neg, if_pos, Nat.add_sub_cancel_left,
        bufferBusValue, hread, zext32_eq_ofNat]
  case reserved => simp (disch := omega) only [Reference.busRead, if_neg]

theorem busRead_error_cases {a : WAddr} {r : Fault} (h : busRead s a = .error r) :
    (∃ i, targetOf a = .data i ∧ Memory.read s.data i.toNat = none) ∨
      ∃ j, targetOf a = .parity j ∧ Memory.read s.parity j.toNat = none := by
  have hbuffer (m : Memory) (i : Byte) (hm : bufferBusValue m i a = .error r) :
      Memory.read m i.toNat = none := by
    unfold bufferBusValue at hm
    split at hm
    · assumption
    · cases hm
  unfold busRead at h
  cases ht : targetOf a <;> rw [ht] at h
  case data i => exact .inl ⟨i, rfl, hbuffer _ _ h⟩
  case parity j => exact .inr ⟨j, rfl, hbuffer _ _ h⟩
  all_goals cases h

/-! ## What a write stores (rule R86) -/

theorem paramWaddr_eq_waddr : Reference.paramWaddr = ParamReg.waddr := by
  funext r
  cases r <;> rfl

theorem ne_zero_of_toNat_pos {a : WAddr} (h : 0 < a.toNat) : a ≠ 0 := by
  rintro rfl
  cases h

section BusStore

variable (s) {a : WAddr} (v : Word)

theorem busStore_param {r : ParamReg} (h : a.toNat = r.waddr.toNat) :
    Reference.busStore s a v = s.writeParam r (paramOperand v) := by
  cases r <;> simp only [Reference.busStore, h] <;> rfl

theorem busStore_data {i : Byte} (h : a.toNat = 0x400 + i.toNat) :
    Reference.busStore s a v = s.writeData i (symbolOperand v) := by
  simp (disch := omega) only [Reference.busStore, h, if_neg, if_pos, Nat.add_sub_cancel_left]
  rfl

theorem busStore_parity {j : Byte} (h : a.toNat = 0x500 + j.toNat) :
    Reference.busStore s a v = s.writeParity j (symbolOperand v) := by
  simp (disch := omega) only [Reference.busStore, h, if_neg, if_pos, Nat.add_sub_cancel_left]
  rfl

theorem busStore_ignored (hparam : a.toNat < 0x004 ∨ 0x009 < a.toNat)
    (hbuffer : a.toNat < 0x400 ∨ 0x5FF < a.toNat) : Reference.busStore s a v = s := by
  simp (disch := omega) only [Reference.busStore, if_neg]

/-- Away from CMD the model's write is the case list of rule R86. -/
theorem exec_wr_eq_busStore (ha : a ≠ 0) : exec (.wr a v) s = .next (Reference.busStore s a v) := by
  have hcovers := targetOf_covers a
  rw [exec, execWr, busWrite]
  cases ht : targetOf a <;> rw [ht, Target.Covers] at hcovers
  case cmd => exact absurd ((targetOf_eq_cmd_iff a).mp ht) ha
  case param r => simp only [busStore_param s v hcovers]
  case data i => simp only [busStore_data s v hcovers]
  case parity j => simp only [busStore_parity s v hcovers]
  case cfg r =>
    have hbounds := r.waddr_bounds
    rw [busStore_ignored s v (by omega) (by omega)]
  all_goals rw [busStore_ignored s v (by omega) (by omega)]

theorem exec_wr_param (r : ParamReg) :
    exec (.wr (Reference.paramWaddr r) v) s = .next (s.writeParam r (paramOperand v)) := by
  rw [paramWaddr_eq_waddr, exec_wr_eq_busStore s v (paramReg_waddr_ne_zero r), busStore_param s v rfl]

theorem exec_wr_data (i : Byte) : exec (.wr (BitVec.ofNat 11 (0x400 + i.toNat)) v) s =
    .next (s.writeData i (symbolOperand v)) := by
  have haddr : (BitVec.ofNat 11 (0x400 + i.toNat)).toNat = 0x400 + i.toNat :=
    Nat.mod_eq_of_lt (by omega)
  rw [exec_wr_eq_busStore s v (ne_zero_of_toNat_pos (by omega)), busStore_data s v haddr]

theorem exec_wr_parity (j : Byte) : exec (.wr (BitVec.ofNat 11 (0x500 + j.toNat)) v) s =
    .next (s.writeParity j (symbolOperand v)) := by
  have haddr : (BitVec.ofNat 11 (0x500 + j.toNat)).toNat = 0x500 + j.toNat :=
    Nat.mod_eq_of_lt (by omega)
  rw [exec_wr_eq_busStore s v (ne_zero_of_toNat_pos (by omega)), busStore_parity s v haddr]

/-- A write away from CMD completes, with one of the effects of a write. -/
theorem exists_effect_of_wr (ha : a ≠ 0) : ∃ t, exec (.wr a v) s = .next t ∧ Effect s (.wr a v) t :=
  ⟨_, exec_wr_eq_busStore s v ha, effect_of_execWr ha (exec_wr_eq_busStore s v ha)⟩

end BusStore

/-! ## Command words (rules R83 and R84) -/

/-- A word of NOP's row decodes to NOP: its ignored bits are cleared by the row's mask. -/
theorem decodeWord_of_nopRow {w : TWord} (h : w &&& 0xFFF0000000F#44 = 0x80000000000#44) :
    decodeWord w = .nop := by
  obtain ⟨hwe, ha⟩ := command_of_matches (r := ⟨"NOP", 0x80000000000#44, 0xFFF0000000F#44⟩)
    List.mem_cons_self (beq_iff_eq.mpr h)
  rw [decodeWord_of_command hwe ha, ← decodeWord_encodeCommand, ← and_commandMask hwe ha, h]
  decide

/-- A CMD write with a reserved code reports IllegalCommand. -/
theorem exec_reservedCode (s : State) {w : TWord} (hwe : w.getLsbD 43 = true)
    (ha : w.extractLsb' 32 11 = 0#11) (hop : 3 ≤ (w.extractLsb' 0 4).toNat) :
    exec (decodeWord w) s = .next (Reference.withErr s 3) := by
  obtain ⟨-, hcommand, -⟩ := decodingFollowsThePriorityOrder w
  obtain ⟨-, -, -, h3, h4to7, h8to15⟩ := hcommand hwe ha
  obtain heq | hgt := Nat.eq_or_lt_of_le hop
  · rw [h3 heq.symm]; rfl
  · obtain hhigh | hmid := Nat.lt_or_ge 7 (w.extractLsb' 0 4).toNat
    · rw [h8to15 hhigh]; rfl
    · rw [h4to7 hgt hmid]; rfl

/-! ## What INIT answers (rules R73 to R82) -/

theorem exec_init_of_error {e : ErrCode} (h : initResult s.params = .error e) :
    exec .init s = .next (s.setErr e) := by
  rw [exec, execInit, h]

theorem exec_init_of_ok {c : Configuration} (h : initResult s.params = .ok c) :
    exec .init s = .next (s.commit c) := by
  rw [exec, execInit, h]

/-- A parameter out of range is found before the polynomial is looked at. -/
theorem exec_init_of_not_inRange (h : ¬Reference.InRange s.params) :
    exec .init s = .next (Reference.withErr s 1) := by
  obtain ⟨hx, -⟩ | ⟨hr, -⟩ := initResult_cases s.params
  · exact exec_init_of_error hx
  · exact absurd ((rangeChecks_iff_inRange _).mp hr) h

theorem initResult_of_buildField {p : Params} {log alog : Table} (hr : Reference.InRange p)
    (hb : buildField p.symw.toNat p.poly.toNat = some (log, alog)) :
    initResult p = .ok (configurationOf p log alog
      (buildGenerator p.nn log alog p.fcr.toNat p.prim.toNat p.nroots.toNat)
      (iPrim p.nn p.prim.toNat)) := by
  obtain ⟨-, hout⟩ | ⟨-, ⟨-, hnone⟩ | ⟨log', alog', hsome, hx⟩⟩ := initResult_cases p
  · exact absurd ((rangeChecks_iff_inRange p).mpr hr) hout
  · rw [hnone] at hb; cases hb
  · rw [hsome] at hb; cases hb; exact hx

theorem initResult_error_code {p : Params} {e : ErrCode} (h : initResult p = .error e) :
    e.code = 1 ∨ e.code = 2 := by
  obtain ⟨hx, -⟩ | ⟨-, ⟨hx, -⟩ | ⟨log, alog, -, hx⟩⟩ := initResult_cases p <;> rw [hx] at h <;> cases h
  · exact .inl rfl
  · exact .inr rfl

/-- An INIT that leaves ERR = 0 has committed what it computed. -/
theorem exec_init_err_zero (h : exec .init s = .next t) (herr : t.status.err = 0) :
    ∃ c, initResult s.params = .ok c ∧ t = s.commit c := by
  cases effect_of_execInit h with
  | initFailed e he =>
    have hcode : e.code = 0 := herr
    obtain hone | htwo := initResult_error_code he
    · exact absurd (hcode.symm.trans hone) (by decide)
    · exact absurd (hcode.symm.trans htwo) (by decide)
  | initCommitted c hc => exact ⟨c, hc, rfl⟩

/-- The configuration INIT commits shows the parameters whole in its mirrors. -/
theorem cfg_of_initResult {p : Params} {c : Configuration} (h : initResult p = .ok c) :
    c.cfg.m.toNat = p.symw.toNat ∧ c.cfg.poly = p.poly ∧ c.cfg.fcr.toNat = p.fcr.toNat ∧
      c.cfg.prim.toNat = p.prim.toNat ∧ c.cfg.nroots.toNat = p.nroots.toNat ∧
      c.cfg.pad.toNat = p.pad.toNat := by
  rw [← mirroredParams_of_initResult h]
  simp

/-- The entries of the tables INIT commits (rules R55 and R81). -/
theorem entry_configurationOf {p : Params} (log alog : Table) (c : List Byte) (ip : Option Nat) {x : Nat}
    (hx : x < 256) :
    Table.entry (configurationOf p log alog c ip).log x = (if x ≤ p.nn then Table.entry log x else 0) ∧
      Table.entry (configurationOf p log alog c ip).alog x =
        (if x ≤ p.nn then Table.entry alog x else 0) ∧
      Table.entry (configurationOf p log alog c ip).genpoly x =
        if x ≤ p.nroots.toNat then Table.entry log (coeff c x).toNat else 0 := by
  simp only [configurationOf, Table.entry_ofEntries, if_pos hx, and_self]

end Sys2Proof.Machine

/-! ## The obligations of the family of INIT and the control accesses -/

namespace Sys2Proof

open Sys2Proof.Machine

/-- Settles O11: each target is read at the addresses the case list of rule R85 gives it. -/
theorem aReadAnswersTheAddressedWord : Obligations.AReadAnswersTheAddressedWord := by
  intro s a
  rw [exec, execRd, busRead_eq_reference]
  cases Reference.busRead s a <;> rfl

/-- Settles O12: the only reads that fault are those of a buffer entry that is none. -/
theorem aReadCompletesUnlessTheEntryIsUnwritten :
    Obligations.AReadCompletesUnlessTheEntryIsUnwritten := by
  intro s a hdata hparity
  obtain ⟨v, -, hx⟩ | ⟨r, hr, -⟩ := execRd_cases a s
  · exact ⟨v, hx⟩
  · exfalso
    obtain ⟨i, ht, hnone⟩ | ⟨j, ht, hnone⟩ := busRead_error_cases hr
    · obtain ⟨hlo, hhi, hi⟩ := targetOf_eq_data ht
      have hsome := hdata hlo hhi
      rw [← hi, hnone] at hsome
      cases hsome
    · obtain ⟨hlo, hhi, hj⟩ := targetOf_eq_parity ht
      have hsome := hparity hlo hhi
      rw [← hj, hnone] at hsome
      cases hsome

/-- Settles O13: a CMD write decodes to its command, and any other stores by the case list of rule R86. -/
theorem aWriteRunsACommandOrStoresItsValue : Obligations.AWriteRunsACommandOrStoresItsValue := by
  intro s w hwe
  obtain ⟨-, hcommand, hwrite⟩ := decodingFollowsThePriorityOrder w
  refine ⟨fun ha => ?_, fun ha => ?_⟩
  · obtain ⟨h0, h1, h2, -⟩ := hcommand hwe ha
    exact ⟨fun h => by rw [h0 h]; rfl, fun h => by rw [h1 h], fun h => by rw [h2 h],
      exec_reservedCode s hwe ha⟩
  · rw [hwrite hwe ha, exec_wr_eq_busStore s _ ha]

/-- Settles O14: a write away from CMD completes, its effects give the frame, and at P.*, DATA and PARITY
the case list names the update. -/
theorem aWriteStoresAndLeavesTheRest : Obligations.AWriteStoresAndLeavesTheRest := by
  refine ⟨fun s a v ha => ?_, fun s a v ha hout => ?_,
    fun s r v => ⟨_, exec_wr_param s v r, ?_, rfl, rfl, fun r' hr => ?_⟩,
    fun s i v => ⟨_, exec_wr_data s v i, ?_, rfl, fun j hj => ?_⟩,
    fun s i v => ⟨_, exec_wr_parity s v i, ?_, rfl, fun j hj => ?_⟩, fun s a v ha hout => ?_⟩
  · obtain ⟨t, ht, heff⟩ := exists_effect_of_wr s v ha
    exact ⟨t, ht, by cases heff <;> rfl⟩
  · obtain ⟨t, ht, heff⟩ := exists_effect_of_wr s v ha
    obtain hsame | ⟨_, _, hi, hlo, hhi⟩ := heff.params_eq_or
    · exact ⟨t, ht, hsame⟩
    · cases hi; omega
  · rw [State.writeParam_params, Params.field_withField, if_pos rfl, paramOperand]
  · rw [State.writeParam_params, Params.field_withField, if_neg hr]
  · rw [State.writeData_data, Memory.read_write, if_pos rfl, symbolOperand]
  · rw [State.writeData_data, Memory.read_write, if_neg hj]
  · rw [State.writeParity_parity, Memory.read_write, if_pos rfl, symbolOperand]
  · rw [State.writeParity_parity, Memory.read_write, if_neg hj]
  · obtain ⟨t, ht, heff⟩ := exists_effect_of_wr s v ha
    refine ⟨t, ht, ?_, ?_⟩
    · obtain hsame | ⟨_, _, hi, hlo, hhi⟩ := heff.data_eq_or
      · exact hsame
      · cases hi; omega
    · obtain hsame | hi | ⟨_, _, hi, hlo, hhi⟩ := heff.parity_eq_or
      · exact hsame
      · cases hi
      · cases hi; omega

/-- Settles O19: the three rows of reserved codes act alike. -/
theorem reservedCodesReportIllegalCommand : Obligations.ReservedCodesReportIllegalCommand :=
  ⟨fun _ => rfl, fun _ _ _ _ => rfl, fun _ _ _ => rfl, fun s _ => exec_reservedCode s⟩

/-- Settles O20: each range is one of the checks that stand before BuildField, and a commit took all of
them. -/
theorem initRejectsParametersOutOfRange : Obligations.InitRejectsParametersOutOfRange := by
  refine ⟨fun s h => exec_init_of_not_inRange fun ⟨hsymw, _⟩ => h hsymw,
    fun s h => exec_init_of_not_inRange fun ⟨_, hfcr, _⟩ => h hfcr,
    fun s h => exec_init_of_not_inRange fun ⟨_, _, hprim, _⟩ => h hprim,
    fun s h => exec_init_of_not_inRange fun ⟨_, _, _, hnroots, _⟩ => h hnroots,
    fun s h => exec_init_of_not_inRange fun ⟨_, _, _, _, hpad⟩ => h hpad, fun s t h herr => ?_⟩
  obtain ⟨c, hc, rfl⟩ := exec_init_err_zero h herr
  obtain ⟨hr, -⟩ := initResult_eq_ok hc
  obtain ⟨hnn, hk⟩ := nn_k_of_initResult hc
  obtain ⟨-, -, -, -, hnroots, hpad⟩ := cfg_of_initResult hc
  rw [State.commit_cfg, hnn, hk, hnroots, hpad]
  exact Params.k_bounds hr

/-- Settles O22: the mirrors show the parameters whole, nn and k fit their fields, and iprim is what the
search answers. -/
theorem initCommitsTheConfiguration : Obligations.InitCommitsTheConfiguration := by
  intro s hr hp
  obtain ⟨t, ht, hvalid, herr, hinverse, hnone⟩ := iprimIsTheInverseOrAbsent s hr hp
  obtain ⟨c, hc, rfl⟩ := exec_init_err_zero ht herr
  obtain ⟨hnn, hk⟩ := nn_k_of_initResult hc
  obtain ⟨hm, hpoly, hfcr, hprim, hnroots, hpad⟩ := cfg_of_initResult hc
  refine ⟨_, ht, rfl, hvalid, herr, hm, hpoly, hfcr, hprim, hnroots, hpad, hnn, hk, fun hg => ?_, hnone⟩
  obtain ⟨hiv, hpos, -, -, hinv, hleast, -⟩ := hinverse hg
  exact ⟨hiv, hpos, hinv, hleast⟩

/-- Settles O23: a commit fills its tables entry by entry from the built ones. -/
theorem initCommitsTheBuiltTables : Obligations.InitCommitsTheBuiltTables :=
  fun s _ _ hr hb => ⟨_, exec_init_of_ok (initResult_of_buildField hr hb),
    fun _ hx => entry_configurationOf _ _ _ (iPrim s.params.nn s.params.prim.toNat) hx⟩

/-- Settles O24: INIT fails with one of its two codes, or commits with ERR = 0. -/
theorem aFailedInitWritesOnlyErr : Obligations.AFailedInitWritesOnlyErr := by
  intro s
  cases h : initResult s.params with
  | error e => exact ⟨_, exec_init_of_error h, fun _ => ⟨initResult_error_code h, rfl⟩⟩
  | ok c => exact ⟨_, exec_init_of_ok h, fun herr => absurd rfl herr⟩

/-- Settles O25: both states compute the same result, and a commit replaces all of the configuration. -/
theorem initDependsOnlyOnTheParameters : Obligations.InitDependsOnlyOnTheParameters := by
  intro s₁ s₂ hparams
  cases h : initResult s₁.params with
  | error e =>
    refine ⟨_, _, exec_init_of_error h, exec_init_of_error (hparams ▸ h), rfl, fun herr => ?_⟩
    obtain ⟨c, hc, -⟩ := exec_init_err_zero (exec_init_of_error h) herr
    rw [h] at hc
    cases hc
  | ok c =>
    exact ⟨_, _, exec_init_of_ok h, exec_init_of_ok (hparams ▸ h), rfl,
      fun _ => ⟨rfl, rfl, rfl, rfl, rfl⟩⟩

/-- Settles O18: every word of NOP's row decodes to NOP. -/
theorem nopChangesNothing : Obligations.NopChangesNothing := by
  refine ⟨fun _ => rfl, fun s w h => ?_⟩
  rw [decodeWord_of_nopRow h]
  rfl

end Sys2Proof

/-! # Proofs: the family of errors and faults (60_exceptions.md) -/

namespace Sys2Proof.Machine

variable {s t : State}

/-! ## Runs that record no fault (rule R95) -/

theorem faultFreeRun_zero_iff : FaultFreeRun 0 s t ↔ s = t :=
  ⟨fun h => by cases h; rfl, fun h => by rw [h]; rfl⟩

/-- A run completes when its first step does and the run from there does. -/
theorem coreRun_succ_eq_next_iff {M : Host.Core} {s t : M.State} {n : Nat} :
    M.run (n + 1) s = .next t ↔ ∃ u, M.step s = .next u ∧ M.run n u = .next t := by
  rw [Host.Core.run]
  cases M.step s with
  | next u => exact ⟨fun h => ⟨u, rfl, h⟩, fun ⟨_, hu, h⟩ => by cases hu; exact h⟩
  | fault | refused => exact ⟨nofun, nofun⟩

theorem faultFreeRun_succ_iff {n : Nat} :
    FaultFreeRun (n + 1) s t ↔ ∃ u, step s = .next u ∧ FaultFreeRun n u t :=
  coreRun_succ_eq_next_iff

/-- What every step keeps holds at the end of a run from a state where it holds. -/
theorem FaultFreeRun.preserves {P : State → Prop} (hstep : ∀ s t, P s → step s = .next t → P t) {n : Nat}
    (h : FaultFreeRun n s t) (hs : P s) : P t := by
  induction n generalizing s with
  | zero => rwa [← faultFreeRun_zero_iff.mp h]
  | succ n ih =>
    obtain ⟨u, hu, hrun⟩ := faultFreeRun_succ_iff.mp h
    exact ih hrun (hstep s u hs hu)

/-! ## What is refused: nothing (rule R90) -/

section NeverRefused

variable (s) (r : Refusal)

theorem execInit_ne_refused : execInit s ≠ .refused r := by
  obtain ⟨_, -, hx⟩ | ⟨_, -, hx⟩ := execInit_cases s <;> rw [hx] <;> nofun

theorem execEncode_ne_refused : execEncode s ≠ .refused r := by
  obtain ⟨-, hx⟩ | ⟨-, -, hx⟩ | ⟨-, -, ⟨_, -, hx⟩ | ⟨_, -, hx⟩⟩ := execEncode_cases s <;> rw [hx] <;> nofun

theorem runCommand_ne_refused (op : BitVec 4) : runCommand op s ≠ .refused r := by
  unfold runCommand
  split
  case h_2 => exact execInit_ne_refused s r
  case h_3 => exact execEncode_ne_refused s r
  all_goals nofun

theorem execWr_ne_refused (a : WAddr) (v : Word) : execWr a v s ≠ .refused r := by
  rw [execWr]
  obtain ⟨-, hx⟩ | ⟨_, -, hx⟩ | ⟨_, -, hx⟩ | ⟨_, -, hx⟩ | hx := busWrite_cases a v s <;> rw [hx]
  · exact runCommand_ne_refused s r _
  all_goals nofun

theorem execRd_ne_refused (a : WAddr) : execRd a s ≠ .refused r := by
  obtain ⟨_, -, hx⟩ | ⟨_, -, hx⟩ := execRd_cases a s <;> rw [hx] <;> nofun

theorem exec_ne_refused (i : Instr) : exec i s ≠ .refused r := by
  cases i with
  | init => exact execInit_ne_refused s r
  | encode => exact execEncode_ne_refused s r
  | wr a v => exact execWr_ne_refused s r a v
  | rd a => exact execRd_ne_refused s r a
  | nop | rsvdCmd3 | rsvdCmd4to7 | rsvdCmd8to15 => nofun

end NeverRefused

/-! ## What faults, and when (rule R95) -/

theorem execInit_ne_fault (s : State) (r : Fault) : execInit s ≠ .fault r := by
  obtain ⟨_, -, hx⟩ | ⟨_, -, hx⟩ := execInit_cases s <;> rw [hx] <;> nofun

theorem execWr_ne_fault (s : State) (r : Fault) {a : WAddr} (v : Word) (ha : a ≠ 0) :
    execWr a v s ≠ .fault r := by
  have hx : execWr a v s = .next (Reference.busStore s a v) := exec_wr_eq_busStore s v ha
  rw [hx]
  nofun

/-- ENCODE faults only without a configuration, or on a symbol it cannot take (rule R62). -/
theorem execEncode_fault {r : Fault} (h : execEncode s = .fault r) :
    (s.status.valid = false ∧ r = .encodeNotInitialized) ∨
    (s.status.valid = true ∧ s.cfg.nroots ≠ 0 ∧ ∃ j, j < s.cfg.k.toNat ∧
      ((Memory.read s.data j = none ∧ r = .encodeDataUnwritten j) ∨
        ∃ d, Memory.read s.data j = some d ∧ s.cfg.nn.toNat < d.toNat ∧ r = .encodeSymbolRange j)) := by
  obtain ⟨hv, hx⟩ | ⟨-, -, hx⟩ | ⟨hv, hn, ⟨r', hr, hx⟩ | ⟨_, -, hx⟩⟩ := execEncode_cases s <;>
    rw [hx] at h <;> cases h
  · exact .inl ⟨hv, rfl⟩
  · obtain ⟨j, -, hj, hsymbol⟩ := readSymbols_error hr
    rw [Nat.zero_add] at hj
    exact .inr ⟨hv, fun h0 => hn (congrArg BitVec.toNat h0), j, hj, hsymbol⟩

/-- A read faults only on a buffer entry that is none (rule R85). -/
theorem execRd_fault {a : WAddr} {r : Fault} (h : execRd a s = .fault r) :
    r = .readUnwritten a ∧
      ((0x400 ≤ a.toNat ∧ a.toNat ≤ 0x4FF ∧ Memory.read s.data (a.toNat - 0x400) = none) ∨
        (0x500 ≤ a.toNat ∧ a.toNat ≤ 0x5FF ∧ Memory.read s.parity (a.toNat - 0x500) = none)) := by
  obtain ⟨_, -, hx⟩ | ⟨r', hr, hx⟩ := execRd_cases a s <;> rw [hx] at h <;> cases h
  refine ⟨busRead_error hr, ?_⟩
  obtain ⟨i, ht, hnone⟩ | ⟨j, ht, hnone⟩ := busRead_error_cases hr
  · obtain ⟨hlo, hhi, hi⟩ := targetOf_eq_data ht
    exact .inl ⟨hlo, hhi, hi ▸ hnone⟩
  · obtain ⟨hlo, hhi, hj⟩ := targetOf_eq_parity ht
    exact .inr ⟨hlo, hhi, hj ▸ hnone⟩

end Sys2Proof.Machine

/-! ## The obligations of the family of errors and faults -/

namespace Sys2Proof

open Sys2Proof.Machine

/-- Settles O47: the invariant and the empty fault field are each kept by every step, so by every run. -/
theorem faultFreeRunsKeepTheInvariant : Obligations.FaultFreeRunsKeepTheInvariant := by
  intro n s t hs h
  refine ⟨h.preserves everyStepKeepsTheInvariant hs, fun hn => ?_⟩
  obtain ⟨n, rfl⟩ := Nat.exists_eq_add_one.mpr hn
  obtain ⟨-, -, hstep, -⟩ := aFaultIsRecordedAndSticky
  obtain ⟨u, hu, hrun⟩ := faultFreeRun_succ_iff.mp h
  obtain ⟨hf, hfu, -⟩ := hstep s u hu
  refine ⟨hf, hrun.preserves (fun v w _ hw => ?_) hfu⟩
  obtain ⟨-, hfw, -⟩ := hstep v w hw
  exact hfw

/-- Settles O49: of all effects only those of commands write STATUS.ERR; a failed INIT has one of its two
codes, and a commit and a completed ENCODE clear it. -/
theorem errIsWrittenOnlyByCommands : Obligations.ErrIsWrittenOnlyByCommands := by
  refine ⟨fun _ _ => rfl, fun i s t hwf h => ?_⟩
  cases effect_of_exec hwf h with
  | initFailed e he => exact .inr (initResult_error_code he)
  | initCommitted c hc => exact .inl rfl
  | _ => rfl

/-- Settles O52: of the well-formed instructions only ENCODE and RD can fault, each as its own fault lemma
says. -/
theorem onlyEncodeAndReadsFault : Obligations.OnlyEncodeAndReadsFault := by
  refine ⟨fun i s r => exec_ne_refused s r i, fun i s r hwf h => ?_⟩
  cases i with
  | encode =>
    obtain ⟨hv, hr⟩ | ⟨hv, hn, hsymbol⟩ := execEncode_fault h
    · exact .inl ⟨rfl, hv, hr⟩
    · exact .inr (.inl ⟨rfl, hv, hn, hsymbol⟩)
  | rd a => exact .inr (.inr ⟨a, rfl, execRd_fault h⟩)
  | init => exact absurd h (execInit_ne_fault s r)
  | wr a v => exact absurd h (execWr_ne_fault s r v (of_decide_eq_true hwf))
  | nop | rsvdCmd3 | rsvdCmd4to7 | rsvdCmd8to15 => cases h

end Sys2Proof

/-! # Proofs: the reset family (70_reset_and_hazards.md) -/

namespace Sys2Proof.Machine

variable {s t : State}

/-! ## Accesses at reset (rules R29 and R101) -/

/-- While VALID = 0 every table address answers 0 (rule R85). -/
theorem busRead_table_of_invalid {a : WAddr} (hv : s.status.valid = false) (hlo : 0x100 ≤ a.toNat)
    (hhi : a.toNat ≤ 0x3FF) : busRead s a = .ok 0 := by
  have hcovers := targetOf_covers a
  unfold busRead
  cases ht : targetOf a <;> rw [ht, Target.Covers] at hcovers
  case log | alog | genpoly => simp [tableBusValue, hv]
  case param r | cfg r => have := r.waddr_bounds; omega
  all_goals omega

theorem exec_rd_of_busRead {a : WAddr} {v : Word} (h : busRead s a = .ok v) :
    exec (.rd a) s = .next (s.respond v) := by
  rw [exec, execRd, h]

/-- The word issued next runs at once on a state with no fault. -/
theorem step_withFetchWord (hf : s.fault = none) (nbits : Nat) (w : TWord) :
    step (s.withFetchWord nbits w.toNat) = exec (decodeWord w) (s.take s.pending) := by
  rw [State.withFetchWord, BitVec.ofNat_toNat, BitVec.setWidth_eq]
  exact step_word (s := s.issue (.word w)) hf rfl

/-! ## VALID is never cleared (rule R101) -/

theorem Effect.valid_of_valid {i : Instr} (h : Effect s i t) (hv : s.status.valid = true) :
    t.status.valid = true := by
  cases h with
  | initCommitted c => rfl
  | _ => exact hv

theorem valid_of_step_of_valid (h : step s = .next t) (hv : s.status.valid = true) :
    t.status.valid = true := by
  obtain ⟨-, rfl | ⟨_, _, heff⟩⟩ := step_next_cases h
  · exact hv
  · exact heff.valid_of_valid hv

end Sys2Proof.Machine

/-! ## The obligations of the reset family -/

namespace Sys2Proof

open Sys2Proof.Machine

/-- Settles O1: the fields are those of the definition, a table read sees VALID = 0, the issued word is the
oldest request, and no effect clears VALID; a faulted state is stuck. -/
theorem resetLeavesTheUninitializedBlock : Obligations.ResetLeavesTheUninitializedBlock := by
  refine ⟨rfl, rfl, rfl, rfl, fun _ => ⟨rfl, rfl⟩, fun a hlo hhi => ?_, step_withFetchWord rfl 44,
    fun _ _ => valid_of_step_of_valid, fun s r hf => ?_⟩
  · exact exec_rd_of_busRead (busRead_table_of_invalid rfl hlo hhi)
  · obtain ⟨-, -, -, hstuck⟩ := aFaultIsRecordedAndSticky
    obtain ⟨-, hadv⟩ := hstuck s r hf
    rw [hadv, hf]

/-- Settles O45: empty RAMs are canonical, ERR is 0, and with VALID = 0 the configuration has to be the
reset one, which it is. -/
theorem theInvariantHoldsAtReset : Obligations.TheInvariantHoldsAtReset := by
  have hmemory : State.reset.MemoryOk := ⟨rfl, rfl, rfl, rfl, rfl⟩
  have herr : State.reset.ErrOk := Nat.zero_le 3
  have hconfig : State.reset.ConfigOk := rfl
  exact ⟨hmemory, herr, hconfig⟩

end Sys2Proof
